-- ==== Sys2Proof/Word.lean ====
section
/-! DEFINITION. The value types of the block (00_scope.md R8): a byte is 8 bits, a word is 32 bits, one bit is a bit. -/

namespace Sys2Proof

/-- One bit: a chip-select level (R23, R97). -/
abbrev Bit := BitVec 1

/-- One byte exchanged on the wire or stored in the buffer (R8). -/
abbrev Byte := BitVec 8

/-- One register word (R8, `REG_WIDTH` of R6). -/
abbrev Word := BitVec 32

end Sys2Proof
end

