-- ==== Sys2Proof/Config.lean ====
section
/-! DEFINITION. What is fixed for a run and never written by a step (the parameters of 00_scope.md R6, one record, and the
launch memory of 20_memory.md R66), and the free values: opaque constants, so that no proof can see what they are
(`draw` of R9). -/

namespace Sys2Proof

/-- One completed exchange on the SPI wire, `(cs, mosi, miso)` of R23 and R40. -/
structure Xchg where
  cs   : Bit
  mosi : Byte
  miso : Byte
  deriving DecidableEq, Repr

/-- A piece of host memory a program may write: `size` bytes from `base`. -/
structure Region where
  base : Nat
  size : Nat
  deriving DecidableEq, Repr

/-- The launch memory of R66: what the host's memory admits as a destination buffer. -/
inductive HostMem where
  /-- Every byte outside the register window is writable (the caller keeps its duty of R174). -/
  | unrestricted
  /-- Only these regions are writable. -/
  | regions (rs : List Region)
  deriving DecidableEq, Repr

/-- At which STATUS read that sees bit 0 = 0 a `TRANSFER_POLL_CAP` of `c` ends a TRANSFER. Two rules of the spec differ by
one read and no ruling sets either aside, so both are modelled (log entry 19). -/
inductive CapReading where
  /-- The pseudocode of R113: the first such read numbered above `c`. -/
  | exceeded
  /-- The cause column of R185: the read with which `c` of them have been made. -/
  | reached
  deriving DecidableEq, Repr

/-- The one configuration record: each parameter of R6, in its order. The values that R6 fixes, and the defaults of the
OPEN parameters, are `Config.default` (Machine/Params.lean). -/
structure Config where
  /-- `REG_BASE` (OPEN): byte address of the register window's offset 0 (D2: no value in the source). -/
  regBase : Nat
  /-- `SYSTEM_CLOCK_HZ`: the clock the divisor divides (D30). -/
  systemClockHz : Nat
  /-- `BLOCK_SIZE` (OPEN): card block length in bytes and size of the caller's buffer (D21). -/
  blockSize : Word
  /-- `REG_WIDTH`: bits of every register; `Config.wf` holds it to the width of `Word`. -/
  regWidth : Nat
  /-- `OFF_TX` (R24). -/
  offTx : Nat
  /-- `OFF_RX` (R24, C2). -/
  offRx : Nat
  /-- `OFF_STATUS` (R24, C2). -/
  offStatus : Nat
  /-- `OFF_CS` (R24). -/
  offCs : Nat
  /-- `OFF_DIV` (R24). -/
  offDiv : Nat
  /-- `CS_ASSERT`: the value written to assert chip select; the other one deasserts (R30). -/
  csAssert : Bit
  /-- `FRAME_MARKER`: OR-mask of the command byte (R74). -/
  frameMarker : Byte
  /-- `CHECKSUM`: last byte of every frame (R76). -/
  checksum : Byte
  /-- `DUMMY`: the byte sent when only reading. -/
  dummy : Byte
  /-- `RESULT_RETRIES`: poll budget of GET_RESULT (R141). -/
  resultRetries : Nat
  /-- `POWERUP_TRANSFERS`: dummy transfers before the card is addressed (R162). -/
  powerupTransfers : Nat
  /-- `INIT_HZ`: clock target during INIT (R161). -/
  initHz : Nat
  /-- `RUN_HZ`: clock target after INIT (R167). -/
  runHz : Nat
  /-- `CMD_RESET`: a command index (R78). -/
  cmdReset : Nat
  /-- `CMD_INIT`: a command index (R78). -/
  cmdInit : Nat
  /-- `CMD_SET_BLOCK_LEN`: a command index (R78, U15). -/
  cmdSetBlockLen : Nat
  /-- `CMD_READ_BLOCK`: a command index (R78, U15). -/
  cmdReadBlock : Nat
  /-- `TRAILING_DISCARD` (OPEN by D20): transfers after the data bytes of READ_BLOCK. -/
  trailingDiscard : Nat
  /-- `TRANSFER_POLL_CAP` (OPEN by D14): cap on status polls in TRANSFER, none in the original. -/
  transferPollCap : Option Nat
  /-- `INIT_POLL_CAP` (OPEN by D19): cap on iterations of the INIT poll loop, none in the original. -/
  initPollCap : Option Nat
  /-- Which reading of `TRANSFER_POLL_CAP` holds, which is no parameter of R6; without a cap it has no effect. -/
  capReading : CapReading
  /-- The launch memory (R66, D27), which is no parameter of R6. -/
  hostMem : HostMem
  deriving DecidableEq, Repr

/-- FREE VALUE (R112, D15): the card's answer to one exchange, from the history of earlier exchanges, the chip
select and the byte sent. Log entry 3. -/
opaque Config.freeCard : List Xchg → Bit → Byte → Byte

/-- FREE VALUE (R92, D7): bits 31:1 of the `n`-th drawing read of STATUS. Log entry 4. -/
opaque Config.freeStatus : Nat → BitVec 31

/-- FREE VALUE (R91, D8): bits 7:0 of the `n`-th drawing read of RX outside the valid window. Log entry 5. -/
opaque Config.freeRx : Nat → Byte

/-- FREE VALUE (R114): how many status reads of a TRANSFER see bit 0 = 0 before the engine has stepped. Log entry 2. -/
opaque Config.freeWait : Nat → Nat

/-- FREE VALUE (R61, R230): whether the engine moves before the host's next access while an exchange is in flight.
Log entry 12. -/
opaque Config.freeEngineNext : Nat → Bool

end Sys2Proof
end

