-- ==== Sys2Proof/Machine/Params.lean ====
section
/-! DEFINITION. The values of the parameters of 00_scope.md R6, in one record, so that a correction touches one place
(93_implementation_defined.md U14: every literal of the source is unaudited), what follows from the parameters, and the
values that the spec states as such and not as parameters. -/

namespace Sys2Proof

/-- The parameters of a run: the values R6 fixes, and the defaults of the OPEN ones. REG_BASE is not in the source and 0 is
a DESIGN CHOICE (log entry 9), as is the reading of the cap (log entry 19); no statement rests on either. -/
def Config.default : Config where
  regBase := 0
  systemClockHz := 50000000
  blockSize := 512#32
  regWidth := 32
  offTx := 0x44
  offRx := 0x48
  offStatus := 0x4c
  offCs := 0x50
  offDiv := 0x54
  csAssert := 1#1
  frameMarker := 0x40#8
  checksum := 0x95#8
  dummy := 0xFF#8
  resultRetries := 100
  powerupTransfers := 10
  initHz := 400000
  runHz := 5000000
  cmdReset := 0
  cmdInit := 1
  cmdSetBlockLen := 0x16
  cmdReadBlock := 0x17
  trailingDiscard := 1
  transferPollCap := none
  initPollCap := none
  capReading := .exceeded
  hostMem := .unrestricted

/-- Every parameter whose value R6 fixes has that value; the OPEN ones, the reading of the cap and the launch memory are
any. -/
def Config.AtSpec (c : Config) : Prop :=
  c = { Config.default with
    regBase := c.regBase, blockSize := c.blockSize, trailingDiscard := c.trailingDiscard
    transferPollCap := c.transferPollCap, initPollCap := c.initPollCap
    capReading := c.capReading, hostMem := c.hostMem }

/-- Bytes of one register access (R51). -/
def Config.regBytes (c : Config) : Nat := c.regWidth / 8

/-- The five offsets of R24. -/
def Config.offsets (c : Config) : List Nat := [c.offTx, c.offRx, c.offStatus, c.offCs, c.offDiv]

/-- First offset past the last of the five registers; the window's true size is not in the source (R55). -/
def Config.windowEnd (c : Config) : Nat := c.offsets.foldl max 0 + c.regBytes

/-- The value that deasserts chip select (R30). -/
def Config.csDeassert (c : Config) : Bit := ~~~c.csAssert

/-- The largest clock target SET_CLOCK admits: the largest for which the divisor is not below zero (R98, D22);
25_000_000 at R6's clock. -/
def Config.maxClockHz (c : Config) : Nat := c.systemClockHz / 2

/-- Whether SET_CLOCK admits a target (R98, D22). -/
def Config.clockTargetLegal (c : Config) (hz : Nat) : Bool := hz != 0 && hz ≤ c.maxClockHz

/-- How many STATUS reads of one TRANSFER see bit 0 = 0 when a cap of `cap` ends it: the read past the cap (R113), or the
read that reaches it (R185), at least one, since the poll tests the cap after a read (R113). -/
def Config.timeoutReads (c : Config) (cap : Nat) : Nat :=
  match c.capReading with
  | .exceeded => cap + 1
  | .reached => max cap 1

/-- The four command indices of R78. -/
def Config.commands (c : Config) : List Nat := [c.cmdReset, c.cmdInit, c.cmdSetBlockLen, c.cmdReadBlock]

/-- Whether `n` bytes from `dest` are a destination buffer the launch memory admits (R66): none of them lies in the
register window as far as the spec knows it (log entry 13), and, where the writable regions are listed, one of them
holds them all. -/
def Config.admits (c : Config) (dest n : Nat) : Bool :=
  (n == 0 || dest + n ≤ c.regBase || c.regBase + c.windowEnd ≤ dest) &&
  match c.hostMem with
  | .unrestricted => true
  | .regions rs => n == 0 || rs.any fun r => r.base ≤ dest && dest + n ≤ r.base + r.size

namespace Param

/-- The words CS accepts (R30, D11). -/
def csLegal (v : Word) : Bool := v == 0#32 || v == 1#32
/-- The largest command index: the field has 6 bits (R71, R126). -/
def maxIndex : Nat := 63
/-- The bits of byte 0 of a frame that hold the index (R71). -/
def indexMask : Byte := 0x3F#8
/-- The busy / no-response byte (R79). -/
def busyByte : Byte := 0xFF#8
/-- The idle response (R79). -/
def idleByte : Byte := 0x01#8
/-- The ready response (R79). -/
def readyByte : Byte := 0x00#8

end Param

end Sys2Proof
end

