-- ==== Sys2Proof/Syntax.lean ====
section
/-! DEFINITION. The operations of the block, one constructor per row of spec/opcode_table.json (30_encoding.md R84,
R86), and the encoded forms in which a host presents them (R70 to R73). -/

namespace Sys2Proof

/-- The 23 rows of the opcode table, in the table's order. -/
inductive Instr where
  /-- WR_TX `v` (R90). -/
  | wrTx (v : Word)
  /-- RD_RX (R91). -/
  | rdRx
  /-- RD_STATUS (R92). -/
  | rdStatus
  /-- WR_CS `v` (R93). -/
  | wrCs (v : Word)
  /-- WR_DIV `v` (R94). -/
  | wrDiv (v : Word)
  /-- SET_CS `level` (R97). -/
  | setCs (level : Bit)
  /-- SET_CLOCK `hz` (R98). -/
  | setClock (hz : Nat)
  /-- TRANSFER `b` (R113). -/
  | transfer (b : Byte)
  /-- SEND_COMMAND `idx`, `param` (R125). -/
  | sendCommand (idx : Nat) (param : Word)
  /-- GET_RESULT (R141). -/
  | getResult
  /-- EXPECT_IDLE (R145). -/
  | expectIdle
  /-- INIT_POLL (R146). -/
  | initPoll
  /-- EXPECT_READY (R147). -/
  | expectReady
  /-- INIT (R160). -/
  | init
  /-- READ_BLOCK `addr`, `dest` (R170). -/
  | readBlock (addr : Word) (dest : Nat)
  /-- CMD_RESET (R128). -/
  | cmdReset
  /-- CMD_INIT (R129). -/
  | cmdInit
  /-- CMD_SET_BLOCK_LEN (R130). -/
  | cmdSetBlockLen
  /-- CMD_READ_BLOCK `addr` (R131). -/
  | cmdReadBlock (addr : Word)
  /-- DUMMY (R85): TRANSFER 0xFF. -/
  | dummy
  /-- RESP_BUSY (R79): the received byte 0xFF. -/
  | respBusy
  /-- RESP_IDLE (R79, R142): the received byte 0x01. -/
  | respIdle
  /-- RESP_READY (R79, R142): the received byte 0x00. -/
  | respReady
  deriving DecidableEq, Repr

/-- The four formats of R86. -/
inductive Format where
  | reg | seq | frame | byte
  deriving DecidableEq, Repr

/-- The format the opcode table gives an operation (R86). -/
def Instr.format : Instr → Format
  | .wrTx _ | .rdRx | .rdStatus | .wrCs _ | .wrDiv _ => .reg
  | .setCs _ | .setClock _ | .transfer _ | .sendCommand _ _ | .getResult => .seq
  | .expectIdle | .initPoll | .expectReady | .init | .readBlock _ _ => .seq
  | .cmdReset | .cmdInit | .cmdSetBlockLen | .cmdReadBlock _ => .frame
  | .dummy | .respBusy | .respIdle | .respReady => .byte

/-- Direction of a register access (R70 `dir`). -/
inductive Dir where
  | read | write
  deriving DecidableEq, Repr

/-- One operation as the host presents it, encoded: a register access on the bus (format REG, R70), the bytes of a
command frame (format FRAME, R71), one byte sent or one byte received (format BYTE, R72), or an operation invoked by
name (format SEQ, R86: it has no bit pattern of its own; the names of R84 and R85). -/
inductive Request where
  /-- A read or write of `width` bytes at byte address `addr`; `data` is the word written (ignored for a read). -/
  | bus (dir : Dir) (addr : Nat) (width : Nat) (data : Word)
  /-- The bytes of a frame, first byte on the wire first. -/
  | frame (bytes : List Byte)
  /-- One byte to send. -/
  | byteOut (b : Byte)
  /-- One byte received, for the response decoder. -/
  | byteIn (b : Byte)
  /-- An operation invoked by name. -/
  | invoke (op : Instr)
  deriving DecidableEq, Repr

/-- The format of an encoded operation. -/
def Request.format : Request → Format
  | .bus _ _ _ _ => .reg
  | .frame _ => .frame
  | .byteOut _ | .byteIn _ => .byte
  | .invoke _ => .seq

end Sys2Proof
end

