-- ==== Sys2Proof/Machine/State.lean ====
section
/-! DEFINITION. The state: the record `s` of 10_state.md R23, the destination memory, the outcomes, the host's list of
operations, the card, the parameters of the run, and the model's own two fields. Plain data throughout. -/

namespace Sys2Proof.Machine

/-- One event of the observation trace (R40). -/
inductive Event where
  /-- A register write of word `v` at offset `off`. -/
  | regW (off : Nat) (v : Word)
  /-- A register read at `off` that returned `v`. -/
  | regR (off : Nat) (v : Word)
  /-- A completed exchange. -/
  | xchg (x : Xchg)
  deriving DecidableEq, Repr

/-- What GET_RESULT answers (R80): the byte is never 0xFF; `timeout` equals no byte. -/
inductive Result where
  | byte (b : Byte)
  | timeout
  deriving DecidableEq, Repr

/-- The value classes of a response (R79, R142). -/
inductive RespClass where
  | busy | idle | ready | other | timeout
  deriving DecidableEq, Repr

/-- The failure outcomes of R185 that are raised, each with the offending result where there is one. They are values
handed to the invoker: no trap is taken (R189). -/
inductive Failure where
  /-- EXPECT_IDLE: the result of CMD_RESET was not idle (R145). -/
  | resetFailed (r : Result)
  /-- INIT_POLL: the result of a CMD_INIT was neither ready nor idle (R146). -/
  | initFailed (r : Result)
  /-- INIT_POLL with `INIT_POLL_CAP` set: that many polls were all idle (R146). -/
  | initFailedCapped
  /-- EXPECT_READY: the result of CMD_SET_BLOCK_LEN was not ready (R147). -/
  | blockLenConfigFailed (r : Result)
  /-- TRANSFER with `TRANSFER_POLL_CAP` set: the polls ran out (R113, R185). -/
  | transferTimeout
  deriving DecidableEq, Repr

/-- The outcome of one operation of the host (R12). -/
inductive Reply where
  /-- The operation returned and reports nothing. -/
  | done
  /-- The word a register read returned (R91, R92). -/
  | word (v : Word)
  /-- The byte a transfer returned (R113). -/
  | byte (b : Byte)
  /-- What GET_RESULT returned (R141). -/
  | result (r : Result)
  /-- A validator accepted (R145 to R147). -/
  | ok
  /-- The operation ended with a failure outcome (R185). -/
  | failed (f : Failure)
  /-- INIT's public return value, 0 or -1, and for diagnostics the failure behind -1 (R160, R185, R190). -/
  | rc (code : Int) (why : Option Failure)
  /-- The class of a received byte (R79). -/
  | cls (c : RespClass)
  deriving DecidableEq, Repr

/-- A sequencer frame (R21): an operation in progress, its position and its locals. The model's steps end inside an
operation only at the loop head of INIT_POLL (log entry 1). -/
inductive Frame where
  /-- INIT_POLL at its loop head, `m` iterations done. -/
  | initPoll (m : Nat)
  /-- INIT in its step 5, waiting for the INIT_POLL above it. -/
  | init
  deriving DecidableEq, Repr

/-- The two agents that take steps (R7; the card takes none). -/
inductive Agent where
  | host | engine
  deriving DecidableEq, Repr

/-- The card of a run (R112). -/
inductive Card where
  /-- The unconstrained oracle `Config.freeCard`. -/
  | oracle
  /-- A scripted card: the `n`-th exchange of the run receives the `n`-th byte whatever is sent; after the list the
  card answers `after` for ever (0xFF in 95_test_vectors.md). -/
  | script (bytes : List Byte) (after : Byte)
  deriving DecidableEq, Repr

/-- The caller's memory (R32): bytes at rising addresses, no address twice; an unlisted address reads as no value
(log entry 13). -/
abbrev Memory := List Host.Cell

/-- Why the machine stops with no spec meaning for the state it is in. -/
inductive Fault where
  /-- Raised by `resume` on a sequencer stack that no operation builds. No run from reset reaches it, and the block
  itself has no fault or trap (R185). SAFE: the model stops. Log entry 22. -/
  | sequencerMalformed
  deriving DecidableEq, Repr

/-- The `refuse(reason)` of R9: situations the spec gives no meaning. Each is SAFE: the model stops where the hardware
does something the source does not describe. -/
inductive Refusal where
  /-- Raised by `exec` for an operation without a meaning yet. SAFE. -/
  | notModelled (mnemonic : String)
  /-- Raised by WR_TX while an exchange is in flight (R90, U1). SAFE. -/
  | txWriteWhileBusy
  /-- Raised by WR_CS and WR_DIV while an exchange is in flight (R93, R94, U2). SAFE. -/
  | configWriteWhileBusy
  /-- Raised by WR_CS for a word other than 0 or 1 (R93, U7). SAFE. -/
  | reservedCsValue
  /-- Raised by SET_CLOCK outside 1 to 25_000_000 (R98, U8). SAFE. -/
  | clockTargetOutOfRange
  /-- Raised by SEND_COMMAND for an index above 63 (R126, U9). SAFE. -/
  | indexOutOfRange
  /-- Raised by the decoder for a read of a write register or a write of a read register (R96, U5). SAFE. -/
  | wrongDirection
  /-- Raised by the decoder at any offset but the five (R53, U6). SAFE. -/
  | offsetOutOfScope
  /-- Raised by the decoder for an access that is not a naturally aligned 32-bit access (R51, U6). SAFE. -/
  | narrowOrMisalignedRegisterAccess
  /-- Raised by every operation invoked while another is in progress (R224, U17). SAFE. -/
  | concurrentInvocation
  /-- Raised by READ_BLOCK for a buffer the launch memory does not admit (R66, U19). SAFE. -/
  | badDestination
  /-- Raised by the decoder for bytes that are no command frame: not six, another marker or another checksum (R71,
  R73). SAFE. -/
  | notAFrame
  deriving DecidableEq, Repr

/-- The machine's state. -/
structure State where
  /-- `s.tx_data`: the byte being sent, or last sent (R23, R25). -/
  txData : Byte
  /-- `s.rx_latch`: the byte received by the last completed exchange (R23, R26). -/
  rxLatch : Byte
  /-- `s.busy`: an exchange is in flight (R28). -/
  busy : Bool
  /-- `s.rx_valid`: the latch holds a completed exchange that no TX write has superseded (ghost, R29). -/
  rxValid : Bool
  /-- `s.cs`: chip select, 1 = asserted (R30). -/
  cs : Bit
  /-- `s.div`: the clock divisor (R31). -/
  div : Word
  /-- `s.wire`: the exchanges so far, oldest first (R41). -/
  wire : List Xchg
  /-- `s.trace`: the observation trace, oldest first (R40). -/
  trace : List Event
  /-- `s.seq`: the sequencer stack, innermost operation first (R21). -/
  seq : List Frame
  /-- The caller's memory, which holds the destination buffer (R32, R66). -/
  mem : Memory
  /-- The outcomes of the operations, oldest first (R12). -/
  outcomes : List Reply
  /-- The host's operations not yet issued, in program order (R60, R232). -/
  host : List Request
  /-- The card on the wire; no step writes it (R112). -/
  card : Card
  /-- The parameters of the run; no step writes them (R6). -/
  cfg : Config
  /-- MODEL's own: the number of free values drawn so far (log entry 10). -/
  draws : Nat
  /-- MODEL's own: who moves next while an exchange is in flight (log entry 12). -/
  turn : Agent
  deriving DecidableEq, Repr

/-- The state of R210 at the start of a run: nothing in flight, nothing received, bookkeeping empty. `cs`, `div`,
`rxLatch` and `txData` are unspecified there: 0 is a DESIGN CHOICE (log entry 7). -/
def State.reset : State where
  txData := 0#8
  rxLatch := 0#8
  busy := false
  rxValid := false
  cs := 0#1
  div := 0#32
  wire := []
  trace := []
  seq := []
  mem := []
  outcomes := []
  host := []
  card := .oracle
  cfg := Config.default
  draws := 0
  turn := .host

end Sys2Proof.Machine
end

