-- ==== Sys2Proof/Machine/Flags.lean ====
section
/-! DEFINITION. The status flag as software reads it (10_state.md R27, R28) and the classes of a response (R79, R142)
and of a failure (60_exceptions.md R186). -/

namespace Sys2Proof.Machine

/-- STATUS bit 0, `COMPLETE`: 1 when no exchange is in flight (R27). -/
def complete (busy : Bool) : Bit := if busy then 0#1 else 1#1

/-- The word a STATUS read returns (R92): `COMPLETE` in bit 0, a draw in bits 31:1. -/
def statusWord (busy : Bool) (upper : BitVec 31) : Word := upper ++ complete busy

/-- The class of a received byte, by its whole value (R79). -/
def classifyByte (b : Byte) : RespClass :=
  if b = Param.busyByte then .busy
  else if b = Param.idleByte then .idle
  else if b = Param.readyByte then .ready
  else .other

/-- The class of a result (R142). -/
def classify : Result → RespClass
  | .byte b => classifyByte b
  | .timeout => .timeout

/-- The kinds of the source's second taxonomy (R186). -/
inductive FailureKind where
  | protocolTimeout | unexpectedResponse
  deriving DecidableEq, Repr

/-- The kind of a result that made a step fail (R186). -/
def resultKind : Result → FailureKind
  | .timeout => .protocolTimeout
  | .byte _ => .unexpectedResponse

/-- The kind of a failure outcome (R186); the two outcomes that exist only with a cap set have none. -/
def failureKind : Failure → Option FailureKind
  | .resetFailed r | .initFailed r | .blockLenConfigFailed r => some (resultKind r)
  | .initFailedCapped | .transferTimeout => none

end Sys2Proof.Machine
end

