-- ==== Sys2Proof/WellFormed.lean ====
section
/-! DEFINITION. Which operations and parameters are well formed: the operand ranges the spec states (30_encoding.md
R82), and which parameters make sense together. -/

namespace Sys2Proof

/-- An operation whose operands lie in the ranges of R82: a legal CS word (R93), a clock target in range (R98), a
command index of 6 bits (R126). Every other operand is legal at every value of its width. -/
def Instr.wf (c : Config) : Instr → Bool
  | .wrCs v => Param.csLegal v
  | .setClock hz => c.clockTargetLegal hz
  | .sendCommand idx _ => idx ≤ Param.maxIndex
  | .wrTx _ | .rdRx | .rdStatus | .wrDiv _ | .setCs _ | .transfer _ | .getResult => true
  | .expectIdle | .initPoll | .expectReady | .init | .readBlock _ _ => true
  | .cmdReset | .cmdInit | .cmdSetBlockLen | .cmdReadBlock _ => true
  | .dummy | .respBusy | .respIdle | .respReady => true

/-- Parameters that make sense together: registers of one word, word aligned and apart from one another (R24, R51); a
marker that leaves the index its bits (R71); four different indices of 6 bits (R78, R126); and clock targets that
SET_CLOCK admits, with divisors that fit the register (R98). R6's values meet it where REG_BASE is word aligned. -/
def Config.wf (c : Config) : Bool :=
  c.regWidth == 32 && c.regBase % c.regBytes == 0 && c.offsets.all (· % c.regBytes == 0) &&
  decide c.offsets.Nodup && c.frameMarker &&& Param.indexMask == 0#8 &&
  c.commands.all (· ≤ Param.maxIndex) && decide c.commands.Nodup &&
  c.clockTargetLegal c.initHz && c.clockTargetLegal c.runHz && c.maxClockHz ≤ 2 ^ 32

end Sys2Proof
end

