-- ==== Sys2Proof/Decode.lean ====
section
/-! DEFINITION. The decoder, total on every encoded form of 30_encoding.md and rejecting by name, and the encoder,
written from the same encoding rules: R52 and R70 for register accesses, R71, R74, R75, R76 and R78 for frames, R72, R79
and R85 for bytes. -/

namespace Sys2Proof

/-- The five registers of R24. -/
inductive Reg where
  | tx | rx | status | cs | div
  deriving DecidableEq, Repr

/-- The byte offset of a register (R24). -/
def Reg.offset (c : Config) : Reg → Nat
  | .tx => c.offTx
  | .rx => c.offRx
  | .status => c.offStatus
  | .cs => c.offCs
  | .div => c.offDiv

/-- The register at an offset of the window; none at any other offset (R52). -/
def regAt (c : Config) (off : Nat) : Option Reg :=
  if off = c.offTx then some .tx
  else if off = c.offRx then some .rx
  else if off = c.offStatus then some .status
  else if off = c.offCs then some .cs
  else if off = c.offDiv then some .div
  else none

/-- What an encoded form is. -/
inductive Decoded where
  /-- An operation of the table. -/
  | instr (i : Instr)
  /-- A received byte of the class "other", which is legal and has no row of its own (R79, R82, R86). -/
  | otherResponse (b : Byte)
  /-- No meaning, by name. -/
  | reject (q : Machine.Refusal)
  deriving DecidableEq, Repr

/-- An access to a register in its one direction (R52); the other direction is R96. -/
def decodeReg : Reg → Dir → Word → Decoded
  | .tx, .write, v => .instr (.wrTx v)
  | .rx, .read, _ => .instr .rdRx
  | .status, .read, _ => .instr .rdStatus
  | .cs, .write, v => .instr (.wrCs v)
  | .div, .write, v => .instr (.wrDiv v)
  | .tx, .read, _ | .cs, .read, _ | .div, .read, _ => .reject .wrongDirection
  | .rx, .write, _ | .status, .write, _ => .reject .wrongDirection

/-- A register access (R50 to R53). Where two refusals apply the order here is the model's (log entry 15). -/
def decodeBus (c : Config) (dir : Dir) (addr width : Nat) (data : Word) : Decoded :=
  if addr % c.regBytes ≠ 0 then .reject .narrowOrMisalignedRegisterAccess
  else if addr < c.regBase then .reject .offsetOutOfScope
  else
    match regAt c (addr - c.regBase) with
    | none => .reject .offsetOutOfScope
    | some r =>
      if width ≠ c.regBytes then .reject .narrowOrMisalignedRegisterAccess
      else decodeReg r dir data

/-- The index and parameter of a command frame: six bytes, the marker on top of byte 0, the constant checksum last
(R71, R75). -/
def decodeFrame (c : Config) : List Byte → Option (Nat × Word)
  | [b0, b1, b2, b3, b4, b5] =>
    if b0 &&& ~~~Param.indexMask = c.frameMarker ∧ b5 = c.checksum then
      some ((b0 &&& Param.indexMask).toNat, b1 ++ b2 ++ b3 ++ b4)
    else none
  | _ => none

/-- The operation whose frame carries `idx` and `p` (R78): a CMD_ row where its index and its fixed parameter are met,
SEND_COMMAND otherwise (log entry 17). -/
def frameInstr (c : Config) (idx : Nat) (p : Word) : Instr :=
  if idx = c.cmdReset ∧ p = 0#32 then .cmdReset
  else if idx = c.cmdInit ∧ p = 0#32 then .cmdInit
  else if idx = c.cmdSetBlockLen ∧ p = c.blockSize then .cmdSetBlockLen
  else if idx = c.cmdReadBlock then .cmdReadBlock p
  else .sendCommand idx p

/-- A byte to send: the dummy byte is DUMMY (R85), every other byte a TRANSFER of it (R72, R113; log entry 16). -/
def decodeByteOut (c : Config) (b : Byte) : Instr :=
  if b = c.dummy then .dummy else .transfer b

/-- A byte received, by its whole value (R79). -/
def decodeByteIn (b : Byte) : Decoded :=
  if b = Param.busyByte then .instr .respBusy
  else if b = Param.idleByte then .instr .respIdle
  else if b = Param.readyByte then .instr .respReady
  else .otherResponse b

/-- The decoder. -/
def decode (c : Config) : Request → Decoded
  | .bus dir addr width data => decodeBus c dir addr width data
  | .frame bytes =>
    match decodeFrame c bytes with
    | some (idx, p) => .instr (frameInstr c idx p)
    | none => .reject .notAFrame
  | .byteOut b => .instr (decodeByteOut c b)
  | .byteIn b => decodeByteIn b
  | .invoke op => .instr op

/-- The command byte, `0x40 | index` at R6's marker (R74). -/
def commandByte (c : Config) (idx : Nat) : Byte := c.frameMarker ||| BitVec.ofNat 8 idx

/-- The four parameter bytes, most significant first (R57, R75). -/
def paramBytes (p : Word) : List Byte :=
  [p.extractLsb' 24 8, p.extractLsb' 16 8, p.extractLsb' 8 8, p.extractLsb' 0 8]

/-- The six bytes of a command frame in wire order (R71, R75, R76). -/
def frameBytes (c : Config) (idx : Nat) (p : Word) : List Byte :=
  commandByte c idx :: paramBytes p ++ [c.checksum]

/-- An access to a register, as the host puts it on the bus (R50, R70). -/
def busAccess (c : Config) (dir : Dir) (r : Reg) (data : Word) : Request :=
  .bus dir (c.regBase + r.offset c) c.regBytes data

/-- The encoder: the encoded form of an operation in the format its table row gives it (R86). -/
def encode (c : Config) : Instr → Request
  | .wrTx v => busAccess c .write .tx v
  | .rdRx => busAccess c .read .rx 0#32
  | .rdStatus => busAccess c .read .status 0#32
  | .wrCs v => busAccess c .write .cs v
  | .wrDiv v => busAccess c .write .div v
  | .setCs level => .invoke (.setCs level)
  | .setClock hz => .invoke (.setClock hz)
  | .transfer b => .invoke (.transfer b)
  | .sendCommand idx p => .invoke (.sendCommand idx p)
  | .getResult => .invoke .getResult
  | .expectIdle => .invoke .expectIdle
  | .initPoll => .invoke .initPoll
  | .expectReady => .invoke .expectReady
  | .init => .invoke .init
  | .readBlock addr dest => .invoke (.readBlock addr dest)
  | .cmdReset => .frame (frameBytes c c.cmdReset 0#32)
  | .cmdInit => .frame (frameBytes c c.cmdInit 0#32)
  | .cmdSetBlockLen => .frame (frameBytes c c.cmdSetBlockLen c.blockSize)
  | .cmdReadBlock addr => .frame (frameBytes c c.cmdReadBlock addr)
  | .dummy => .byteOut c.dummy
  | .respBusy => .byteIn Param.busyByte
  | .respIdle => .byteIn Param.idleByte
  | .respReady => .byteIn Param.readyByte

/-- Byte `k` (from 0, first on the wire) of a 48-bit frame numbered as R71 numbers it, bit 47 first. -/
def frameByteOf (w k : Nat) : Byte := BitVec.ofNat 8 (w >>> (40 - 8 * k))

/-- The direction of the register at an offset (R24): the direction the table names beside a REG row's bits. -/
def tableDir (c : Config) (off : Nat) : Dir :=
  match regAt c off with
  | some .rx | some .status => .read
  | _ => .write

/-- The encoded form of an instruction given by the table's own bits, with every bit the table does not number zero
(log entry 16): 32 bits are a register offset, 48 bits a frame, 8 bits a byte; SEQ rows have no bits. -/
def tableRequest (c : Config) (nbits w : Nat) : Option Request :=
  if nbits = 32 then some (.bus (tableDir c w) (c.regBase + w) c.regBytes 0#32)
  else if nbits = 48 then some (.frame ((List.range 6).map (frameByteOf w)))
  else if nbits = 8 then
    let b := BitVec.ofNat 8 w
    some (if b = c.dummy then .byteOut b else .byteIn b)
  else none

/-- The instruction the decoder reads from an instruction whose bits, numbered as the table numbers them, are `w`. -/
def decodeTableWord (nbits w : Nat) : Option Instr :=
  match tableRequest Config.default nbits w with
  | some r =>
    match decode Config.default r with
    | .instr i => some i
    | .otherResponse _ | .reject _ => none
  | none => none

end Sys2Proof
end

