-- ==== Sys2Proof/Machine/Operands.lean ====
section
/-! DEFINITION. The operand computations of 40_register_ops.md R99: the clock divisor of R98 and the words an operation
hands to a register. The bytes of a frame (R74, R75) stand beside the encoder in Decode.lean. -/

namespace Sys2Proof.Machine

/-- The divisor of R98: two truncating divisions and a decrement. -/
def divisor (c : Config) (hz : Nat) : Word := BitVec.ofNat 32 (c.systemClockHz / hz / 2 - 1)

/-- The word written to TX for a byte (R113): zero-extended. -/
def txWord (b : Byte) : Word := b.setWidth 32

/-- The byte TX keeps of a written word, and RX of the word read: bits [7:0] (R25, R113). -/
def lowByte (v : Word) : Byte := v.setWidth 8

/-- The word written to CS for a level (R97): zero-extended. -/
def csWord (level : Bit) : Word := level.setWidth 32

/-- The level CS keeps of a written word: bit [0] (R30, R93). -/
def csLevel (v : Word) : Bit := v.setWidth 1

/-- The SPI clock a divisor gives, truncated to whole hertz (R31, R230): information only, no operation uses it. -/
def spiClockHz (c : Config) (d : Word) : Nat := c.systemClockHz / (2 * (d.toNat + 1))

end Sys2Proof.Machine
end

