-- ==== Sys2Proof/Machine/Ops.lean ====
section
/-! DEFINITION. The named operations every meaning is built from: the destination memory (20_memory.md R59, R66), the
trace (R40), the outcome of a sequence and its failures (60_exceptions.md R189), the five register accesses
(40_register_ops.md), the engine step (41_spi_transport.md R111), and how an operation is invoked and ended. -/

namespace Sys2Proof.Machine

/-! ### Destination memory -/

/-- The byte at an address; none where nothing has been written (log entry 13). -/
def Memory.read : Memory → Nat → Option Byte
  | [], _ => none
  | c :: m, a => if a = c.1 then some c.2 else Memory.read m a

/-- `MemWrite(a, 1, v)`, in place in the rising order of addresses. -/
def Memory.write : Memory → Nat → Byte → Memory
  | [], a, v => [(a, v)]
  | c :: m, a, v =>
    if a < c.1 then (a, v) :: c :: m
    else if a = c.1 then (a, v) :: m
    else c :: Memory.write m a v

/-- The canonical form: addresses strictly rising. -/
def Memory.wf : Memory → Bool
  | [] => true
  | [_] => true
  | c :: d :: m => c.1 < d.1 && Memory.wf (d :: m)

/-! ### How a sequence of operations goes on or ends -/

/-- Where a sequence stands: it returned a value, a failure outcome ended it, or it has no meaning. -/
inductive Run (α : Type) where
  | ret (a : α) (s : State)
  | raised (f : Failure) (s : State)
  | refused (q : Refusal)
  deriving DecidableEq, Repr

/-- One operation after another: a raise or a refusal ends the sequence. -/
def Run.bind {α β : Type} (x : Run α) (k : α → State → Run β) : Run β :=
  match x with
  | .ret a s => k a s
  | .raised f s => .raised f s
  | .refused q => .refused q

/-- `raise f`: end the operation with a failure outcome. It changes no state (R189): nothing is saved, no register is
written, chip select and clock stay. -/
def raise {α : Type} (f : Failure) (s : State) : Run α := .raised f s

/-! ### Trace and draws -/

/-- `emit(e)` (R9, R40). -/
def State.emit (s : State) (e : Event) : State := { s with trace := s.trace ++ [e] }

/-- `n` free values have been drawn. -/
def State.drawn (s : State) (n : Nat) : State := { s with draws := s.draws + n }

/-- The outcome of an operation is handed to the host (R12). -/
def State.answer (s : State) (r : Reply) : State := { s with outcomes := s.outcomes ++ [r] }

/-! ### Register accesses -/

/-- WR_TX (R90): start one exchange. -/
def wrTx (v : Word) (s : State) : Run Unit :=
  if s.busy then .refused .txWriteWhileBusy
  else .ret () { s.emit (.regW s.cfg.offTx v) with txData := lowByte v, busy := true, rxValid := false }

/-- RD_RX (R91): the latched byte while it is valid, a draw otherwise. -/
def rdRx (s : State) : Run Word :=
  if s.rxValid then
    let v := txWord s.rxLatch
    .ret v (s.emit (.regR s.cfg.offRx v))
  else
    let v := txWord (Config.freeRx s.draws)
    .ret v ((s.drawn 1).emit (.regR s.cfg.offRx v))

/-- RD_STATUS (R92). -/
def rdStatus (s : State) : Run Word :=
  let v := statusWord s.busy (Config.freeStatus s.draws)
  .ret v ((s.drawn 1).emit (.regR s.cfg.offStatus v))

/-- WR_CS (R93). -/
def wrCs (v : Word) (s : State) : Run Unit :=
  if !Param.csLegal v then .refused .reservedCsValue
  else if s.busy then .refused .configWriteWhileBusy
  else .ret () { s.emit (.regW s.cfg.offCs v) with cs := csLevel v }

/-- WR_DIV (R94). -/
def wrDiv (v : Word) (s : State) : Run Unit :=
  if s.busy then .refused .configWriteWhileBusy
  else .ret () { s.emit (.regW s.cfg.offDiv v) with div := v }

/-! ### The engine and the card -/

/-- `card(h)` of R112: the byte the card returns on one exchange. -/
def Card.answer (c : Card) (wire : List Xchg) (cs : Bit) (mosi : Byte) : Byte :=
  match c with
  | .oracle => Config.freeCard wire cs mosi
  | .script bytes after => bytes.getD wire.length after

/-- The exchange the engine makes of the state (R111). -/
def State.exchange (s : State) : Xchg :=
  { cs := s.cs, mosi := s.txData, miso := s.card.answer s.wire s.cs s.txData }

/-- ENGINE_STEP (R111), taken only while `busy` is set: byte out and byte in, latched in the step that clears
`busy`. -/
def engineStep (s : State) : State :=
  { s.emit (.xchg s.exchange) with
    wire := s.wire ++ [s.exchange]
    rxLatch := s.exchange.miso
    rxValid := true
    busy := false }

/-! ### Invoking an operation -/

/-- How a sequence that runs to its end becomes the step's outcome: its reply, or the failure it ended with, is handed
to the host and the machine goes on (R189). -/
def conclude : Run Reply → Host.Outcome State Fault Refusal
  | .ret r s => .next (s.answer r)
  | .raised f s => .next (s.answer (.failed f))
  | .refused q => .refused q

/-- An operation may be invoked only while no other is in progress (R224). -/
def whenIdle (s : State) (k : Host.Outcome State Fault Refusal) : Host.Outcome State Fault Refusal :=
  if s.seq = [] then k else .refused .concurrentInvocation

/-- Invoke an operation that runs to its end, with the reply its value gives. -/
def invoke {α : Type} (reply : α → Reply) (body : State → Run α) (s : State) :
    Host.Outcome State Fault Refusal :=
  whenIdle s (conclude ((body s).bind fun a s => .ret (reply a) s))

end Sys2Proof.Machine
end

