-- ==== Sys2Proof/Machine/Register.lean ====
section
/-! DEFINITION. Layer L0 (40_register_ops.md): the five register accesses and the two configuration operations. -/

namespace Sys2Proof.Machine

/-- WR_TX (R90). -/
def execWrTx (v : Word) (s : State) : Host.Outcome State Fault Refusal :=
  invoke (fun _ => .done) (wrTx v) s

/-- RD_RX (R91). -/
def execRdRx (s : State) : Host.Outcome State Fault Refusal := invoke .word rdRx s

/-- RD_STATUS (R92). -/
def execRdStatus (s : State) : Host.Outcome State Fault Refusal := invoke .word rdStatus s

/-- WR_CS (R93). -/
def execWrCs (v : Word) (s : State) : Host.Outcome State Fault Refusal :=
  invoke (fun _ => .done) (wrCs v) s

/-- WR_DIV (R94). -/
def execWrDiv (v : Word) (s : State) : Host.Outcome State Fault Refusal :=
  invoke (fun _ => .done) (wrDiv v) s

/-- SET_CS (R97): one register write and nothing else. -/
def setCs (level : Bit) (s : State) : Run Unit := wrCs (csWord level) s

/-- SET_CLOCK (R98): one register write of the divisor. -/
def setClock (hz : Nat) (s : State) : Run Unit :=
  if s.cfg.clockTargetLegal hz then wrDiv (divisor s.cfg hz) s else .refused .clockTargetOutOfRange

/-- SET_CS (R97). -/
def execSetCs (level : Bit) (s : State) : Host.Outcome State Fault Refusal :=
  invoke (fun _ => .done) (setCs level) s

/-- SET_CLOCK (R98). -/
def execSetClock (hz : Nat) (s : State) : Host.Outcome State Fault Refusal :=
  invoke (fun _ => .done) (setClock hz) s

end Sys2Proof.Machine
end

