-- ==== Sys2Proof/Machine/Transport.lean ====
section
/-! DEFINITION. Layer L1 (41_spi_transport.md): TRANSFER, and DUMMY which is a TRANSFER of the dummy byte (R85). -/

namespace Sys2Proof.Machine

/-- The events of `n` successive STATUS reads at offset `off`, the first drawing free value `k` (R92). -/
def statusReads (off : Nat) (busy : Bool) : Nat → Nat → List Event
  | 0, _ => []
  | n + 1, k => .regR off (statusWord busy (Config.freeStatus k)) :: statusReads off busy n (k + 1)

/-- `n` successive RD_STATUS, their values not used. -/
def pollStatus (n : Nat) (s : State) : State :=
  { s with trace := s.trace ++ statusReads s.cfg.offStatus s.busy n s.draws, draws := s.draws + n }

/-- The end of a TRANSFER: the engine steps, the next STATUS read sees bit 0 = 1, RX is read (R113, R114). -/
def finishTransfer (s : State) : Run Byte :=
  (rdStatus (engineStep s)).bind fun _ s => (rdRx s).bind fun w s => .ret (lowByte w) s

/-- TRANSFER (R113). How many STATUS reads see bit 0 = 0 before the engine has stepped is a free value (R114); it is
finite, which is the fairness of R115. With `TRANSFER_POLL_CAP` set, the read with bit 0 = 0 that uses the cap up (R113,
R185; log entry 19) raises, the exchange still in flight. -/
def transfer (b : Byte) (s : State) : Run Byte :=
  (wrTx (txWord b) s).bind fun _ s =>
    let waits := Config.freeWait s.draws
    let s := s.drawn 1
    match s.cfg.transferPollCap with
    | none => finishTransfer (pollStatus waits s)
    | some cap =>
      if s.cfg.timeoutReads cap ≤ waits then raise .transferTimeout (pollStatus (s.cfg.timeoutReads cap) s)
      else finishTransfer (pollStatus waits s)

/-- TRANSFERs of a list of bytes in order, the received bytes discarded. -/
def transferAll : List Byte → State → Run Unit
  | [], s => .ret () s
  | b :: bs, s => (transfer b s).bind fun _ s => transferAll bs s

/-- DUMMY (R85): TRANSFER of the dummy byte. -/
def transferDummy (s : State) : Run Byte := transfer s.cfg.dummy s

/-- TRANSFER (R113). -/
def execTransfer (b : Byte) (s : State) : Host.Outcome State Fault Refusal := invoke .byte (transfer b) s

/-- DUMMY (R85). -/
def execDummy (s : State) : Host.Outcome State Fault Refusal := invoke .byte transferDummy s

end Sys2Proof.Machine
end

