-- ==== Sys2Proof/Machine/Command.lean ====
section
/-! DEFINITION. Layer L2, sending (42_sd_command.md): SEND_COMMAND and the four command frames. -/

namespace Sys2Proof.Machine

/-- SEND_COMMAND (R125): six TRANSFERs, every received byte discarded (R127). -/
def sendCommand (idx : Nat) (param : Word) (s : State) : Run Unit :=
  if idx ≤ Param.maxIndex then transferAll (frameBytes s.cfg idx param) s else .refused .indexOutOfRange

/-- CMD_RESET (R128). -/
def sendReset (s : State) : Run Unit := sendCommand s.cfg.cmdReset 0#32 s

/-- CMD_INIT (R129). -/
def sendInit (s : State) : Run Unit := sendCommand s.cfg.cmdInit 0#32 s

/-- CMD_SET_BLOCK_LEN (R130): the parameter is the configuration's BLOCK_SIZE. -/
def sendSetBlockLen (s : State) : Run Unit := sendCommand s.cfg.cmdSetBlockLen s.cfg.blockSize s

/-- CMD_READ_BLOCK (R131): the address unchanged. -/
def sendReadBlock (addr : Word) (s : State) : Run Unit := sendCommand s.cfg.cmdReadBlock addr s

/-- SEND_COMMAND (R125). -/
def execSendCommand (idx : Nat) (param : Word) (s : State) : Host.Outcome State Fault Refusal :=
  invoke (fun _ => .done) (sendCommand idx param) s

/-- CMD_RESET (R128). -/
def execCmdReset (s : State) : Host.Outcome State Fault Refusal :=
  invoke (fun _ => .done) sendReset s

/-- CMD_INIT (R129). -/
def execCmdInit (s : State) : Host.Outcome State Fault Refusal :=
  invoke (fun _ => .done) sendInit s

/-- CMD_SET_BLOCK_LEN (R130). -/
def execCmdSetBlockLen (s : State) : Host.Outcome State Fault Refusal :=
  invoke (fun _ => .done) sendSetBlockLen s

/-- CMD_READ_BLOCK (R131): the address unchanged. -/
def execCmdReadBlock (addr : Word) (s : State) : Host.Outcome State Fault Refusal :=
  invoke (fun _ => .done) (sendReadBlock addr) s

end Sys2Proof.Machine
end

