-- ==== Sys2Proof/Machine/Response.lean ====
section
/-! DEFINITION. Layer L2, receiving, and the validators of L3 (43_sd_response.md). -/

namespace Sys2Proof.Machine

/-- GET_RESULT with `n` polls left (R141). -/
def pollResult : Nat → State → Run Result
  | 0, s => .ret .timeout s
  | n + 1, s =>
    (transferDummy s).bind fun r s =>
      if r = Param.busyByte then pollResult n s else .ret (.byte r) s

/-- GET_RESULT (R141). -/
def getResult (s : State) : Run Result := pollResult s.cfg.resultRetries s

/-- EXPECT_IDLE (R145). -/
def expectIdle (s : State) : Run Unit :=
  (sendReset s).bind fun _ s =>
    (getResult s).bind fun r s =>
      if r = .byte Param.idleByte then .ret () s else raise (.resetFailed r) s

/-- EXPECT_READY (R147). -/
def expectReady (s : State) : Run Unit :=
  (sendSetBlockLen s).bind fun _ s =>
    (getResult s).bind fun r s =>
      if r = .byte Param.readyByte then .ret () s else raise (.blockLenConfigFailed r) s

/-- Where one pass of the INIT_POLL loop leaves the loop (R146). -/
inductive PollEnd where
  /-- The card is ready. -/
  | ready
  /-- Still initialising: poll again, `m` iterations done. -/
  | again (m : Nat)
  deriving DecidableEq, Repr

/-- One pass of the INIT_POLL loop, `m` iterations done (R146): the cap if one is set, a whole new frame, a
GET_RESULT and the three cases. -/
def pollOnce (m : Nat) (s : State) : Run PollEnd :=
  if s.cfg.initPollCap = some m then raise .initFailedCapped s
  else
    (sendInit s).bind fun _ s =>
      (getResult s).bind fun r s =>
        if r = .byte Param.readyByte then .ret .ready s
        else if r = .byte Param.idleByte then .ret (.again (m + 1)) s
        else raise (.initFailed r) s

/-- What a pass of the loop makes of an INIT_POLL that the host invoked: its outcome, or the loop head again with the
position in `seq` (log entry 1). -/
def endPollAlone : Run PollEnd → Host.Outcome State Fault Refusal
  | .ret .ready s => .next (s.answer .ok)
  | .ret (.again m) s => .next { s with seq := [.initPoll m] }
  | .raised f s => .next (s.answer (.failed f))
  | .refused q => .refused q

/-- A received byte's class is handed to the host; nothing else changes (R79, R142; log entry 18). -/
def classifyReceived (b : Byte) (s : State) : Run RespClass := .ret (classifyByte b) s

/-- GET_RESULT (R141). -/
def execGetResult (s : State) : Host.Outcome State Fault Refusal := invoke .result getResult s

/-- EXPECT_IDLE (R145). -/
def execExpectIdle (s : State) : Host.Outcome State Fault Refusal := invoke (fun _ => .ok) expectIdle s

/-- INIT_POLL (R146): the first pass of the loop; `resume` makes the later ones. -/
def execInitPoll (s : State) : Host.Outcome State Fault Refusal :=
  whenIdle s (endPollAlone (pollOnce 0 s))

/-- EXPECT_READY (R147). -/
def execExpectReady (s : State) : Host.Outcome State Fault Refusal := invoke (fun _ => .ok) expectReady s

/-- RESP_BUSY (R79): the byte 0xFF. -/
def execRespBusy (s : State) : Host.Outcome State Fault Refusal :=
  invoke .cls (classifyReceived Param.busyByte) s

/-- RESP_IDLE (R79): the byte 0x01. -/
def execRespIdle (s : State) : Host.Outcome State Fault Refusal :=
  invoke .cls (classifyReceived Param.idleByte) s

/-- RESP_READY (R79): the byte 0x00. -/
def execRespReady (s : State) : Host.Outcome State Fault Refusal :=
  invoke .cls (classifyReceived Param.readyByte) s

/-- A received byte of the class "other" (R79, R82): it has no row, and is classified like the rest. -/
def otherResponse (b : Byte) (s : State) : Host.Outcome State Fault Refusal :=
  invoke .cls (classifyReceived b) s

end Sys2Proof.Machine
end

