-- ==== Sys2Proof/Machine/Driver.lean ====
section
/-! DEFINITION. Layer L3 (44_driver_sequences.md): INIT and READ_BLOCK, and how an operation in progress goes on. -/

namespace Sys2Proof.Machine

/-- Steps 1 to 4 of INIT (R160 to R164). -/
def initHead (s : State) : Run Unit :=
  (setClock s.cfg.initHz s).bind fun _ s =>
    (setCs s.cfg.csDeassert s).bind fun _ s =>
      (transferAll (List.replicate s.cfg.powerupTransfers s.cfg.dummy) s).bind fun _ s =>
        (setCs s.cfg.csAssert s).bind fun _ s => expectIdle s

/-- Steps 6 and 7 of INIT (R166, R167). -/
def initTail (s : State) : Run Unit :=
  (expectReady s).bind fun _ s => setClock s.cfg.runHz s

/-- INIT's return (R160, R190): 0, or -1 with the failure kept for diagnostics (R185). -/
def endInit : Run Unit → Host.Outcome State Fault Refusal
  | .ret _ s => .next (s.answer (.rc 0 none))
  | .raised f s => .next (s.answer (.rc (-1) (some f)))
  | .refused q => .refused q

/-- What a pass of the INIT_POLL loop makes of INIT's step 5 (R165): steps 6 and 7, the loop head again, or -1. -/
def endPollInInit : Run PollEnd → Host.Outcome State Fault Refusal
  | .ret .ready s => endInit (initTail s)
  | .ret (.again m) s => .next { s with seq := [.initPoll m, .init] }
  | .raised f s => endInit (raise f s)
  | .refused q => .refused q

/-- INIT (R160): steps 1 to 4 and the first pass of step 5; `resume` makes the later passes. -/
def execInit (s : State) : Host.Outcome State Fault Refusal :=
  whenIdle s (endPollInInit ((initHead s).bind fun _ s => pollOnce 0 s))

/-- The next step of an operation in progress (R21): a pass of INIT_POLL's loop, invoked alone or by INIT. -/
def resume (s : State) : Host.Outcome State Fault Refusal :=
  match s.seq with
  | [.initPoll m] => endPollAlone (pollOnce m { s with seq := [] })
  | [.initPoll m, .init] => endPollInInit (pollOnce m { s with seq := [] })
  | _ => .fault .sequencerMalformed

/-- `n` data transfers, each byte stored at the next address before the next transfer starts (R59, R66). -/
def readBytes : Nat → Nat → State → Run Unit
  | 0, _, s => .ret () s
  | n + 1, a, s =>
    (transferDummy s).bind fun b s => readBytes n (a + 1) { s with mem := s.mem.write a b }

/-- READ_BLOCK (R170): every result is accepted, `timeout` too (R148, R173). -/
def readBlock (addr : Word) (dest : Nat) (s : State) : Run Unit :=
  if s.cfg.admits dest s.cfg.blockSize.toNat then
    (sendReadBlock addr s).bind fun _ s =>
      (getResult s).bind fun _ s =>
        (readBytes s.cfg.blockSize.toNat dest s).bind fun _ s =>
          transferAll (List.replicate s.cfg.trailingDiscard s.cfg.dummy) s
  else .refused .badDestination

/-- READ_BLOCK (R170). -/
def execReadBlock (addr : Word) (dest : Nat) (s : State) : Host.Outcome State Fault Refusal :=
  invoke (fun _ => .done) (readBlock addr dest) s

end Sys2Proof.Machine
end

