-- ==== Sys2Proof/Machine/Dispatch.lean ====
section
/-! DEFINITION. One arm per operation of the table: each is one call of its meaning. -/

namespace Sys2Proof.Machine

def exec (i : Instr) (s : State) : Host.Outcome State Fault Refusal :=
  match i with
  | .wrTx v => Sys2Proof.Machine.execWrTx v s
  | .rdRx => Sys2Proof.Machine.execRdRx s
  | .rdStatus => Sys2Proof.Machine.execRdStatus s
  | .wrCs v => Sys2Proof.Machine.execWrCs v s
  | .wrDiv v => Sys2Proof.Machine.execWrDiv v s
  | .setCs level => Sys2Proof.Machine.execSetCs level s
  | .setClock hz => Sys2Proof.Machine.execSetClock hz s
  | .transfer b => Sys2Proof.Machine.execTransfer b s
  | .sendCommand idx param => Sys2Proof.Machine.execSendCommand idx param s
  | .getResult => Sys2Proof.Machine.execGetResult s
  | .expectIdle => Sys2Proof.Machine.execExpectIdle s
  | .initPoll => Sys2Proof.Machine.execInitPoll s
  | .expectReady => Sys2Proof.Machine.execExpectReady s
  | .init => Sys2Proof.Machine.execInit s
  | .readBlock addr dest => Sys2Proof.Machine.execReadBlock addr dest s
  | .cmdReset => Sys2Proof.Machine.execCmdReset s
  | .cmdInit => Sys2Proof.Machine.execCmdInit s
  | .cmdSetBlockLen => Sys2Proof.Machine.execCmdSetBlockLen s
  | .cmdReadBlock addr => Sys2Proof.Machine.execCmdReadBlock addr s
  | .dummy => Sys2Proof.Machine.execDummy s
  | .respBusy => Sys2Proof.Machine.execRespBusy s
  | .respIdle => Sys2Proof.Machine.execRespIdle s
  | .respReady => Sys2Proof.Machine.execRespReady s

end Sys2Proof.Machine
end

