-- ==== Sys2Proof/Machine/Schedule.lean ====
section
/-! DEFINITION. Who moves next, and the move itself: the engine's step, the next pass of an operation in progress, or
the host's next operation, decoded and run (00_scope.md R7; 20_memory.md R60, R61; 70_reset_and_hazards.md R232). -/

namespace Sys2Proof.Machine

/-- A change of the next state of an outcome, if there is one. -/
def onNext (f : State → State) : Host.Outcome State Fault Refusal → Host.Outcome State Fault Refusal
  | .next s => .next (f s)
  | .fault r => .fault r
  | .refused q => .refused q

/-- After a move: with an exchange in flight, a free value says whether the engine or the host moves next (R61, R230);
with none the host does. -/
def reschedule (s : State) : State :=
  if s.busy then
    { s.drawn 1 with turn := if Config.freeEngineNext s.draws then .engine else .host }
  else { s with turn := .host }

/-- Whether the engine moves now: an exchange is in flight, and it is its turn or the host has nothing left to do (the
exchange is still owed, R232). -/
def engineMoves (s : State) : Bool :=
  s.busy && (s.turn == .engine || (s.seq.isEmpty && s.host.isEmpty))

/-- The host's next operation, decoded and run. -/
def runRequest (r : Request) (s : State) : Host.Outcome State Fault Refusal :=
  match decode s.cfg r with
  | .instr i => exec i s
  | .otherResponse b => otherResponse b s
  | .reject q => .refused q

/-- The host's move: the operation in progress goes on, else its next operation is issued, in program order (R60). With
none left the run has ended and nothing changes (R232). -/
def hostMove (s : State) : Host.Outcome State Fault Refusal :=
  match s.seq, s.host with
  | _ :: _, _ => resume s
  | [], r :: rest => runRequest r { s with host := rest }
  | [], [] => .next s

/-- One move of the machine. -/
def move (s : State) : Host.Outcome State Fault Refusal :=
  if engineMoves s then .next (engineStep s) else hostMove s

/-- `s` with an encoded operation where the host's next move takes it from. -/
def State.withRequest (s : State) (r : Request) : State :=
  { s with host := r :: s.host, seq := [], turn := .host }

end Sys2Proof.Machine
end

