-- ==== Sys2Proof/Machine/Step.lean ====
section
/-! DEFINITION. One step of the machine, and where an instruction is placed for the next step. -/

namespace Sys2Proof.Machine

/-- One step: one move, then who moves next. -/
def step (s : State) : Host.Outcome State Fault Refusal := onNext reschedule (move s)

/-- `s` with the instruction of the table's bits `w` as the host's next operation; `s` itself where the table gives no
bits (SEQ rows, R86; log entries 11 and 16). -/
def State.withFetchWord (s : State) (nbits w : Nat) : State :=
  match tableRequest s.cfg nbits w with
  | some r => s.withRequest r
  | none => s

end Sys2Proof.Machine
end

