-- ==== Sys2Proof/Safety.lean ====
section
/-! DEFINITION. The terms claims use, where the parameters have the values of 00_scope.md R6 (`Config.AtSpec`): the
observation of a run (10_state.md R40), what the card makes of a list of bytes (41_spi_transport.md R112), what an
operation that only exchanges bytes leaves, and the invariant of the state. -/

namespace Sys2Proof.Machine

/-! ### The observation -/

/-- The exchange an event records, if it is one (R41). -/
def Event.exchanged : Event → Option Xchg
  | .xchg x => some x
  | .regW _ _ | .regR _ _ => none

/-- The byte a TX write hands to the engine, if the event is one (R25). -/
def Event.sentByte : Event → Option Byte
  | .regW off v => if off = 0x44 then some (lowByte v) else none
  | .regR _ _ | .xchg _ => none

/-- The register write an event records, if it is one of a register other than TX (R169). -/
def Event.configWrite : Event → Option (Nat × Word)
  | .regW off v => if off = 0x44 then none else some (off, v)
  | .regR _ _ | .xchg _ => none

/-- Whether an event is a STATUS read, which claims about traces leave out (R40, D31). -/
def Event.isStatusRead : Event → Bool
  | .regR off _ => off == 0x4c
  | .regW _ _ | .xchg _ => false

/-- The trace without its STATUS reads (R40). -/
def observed (tr : List Event) : List Event := tr.filter fun e => !e.isStatusRead

/-- The observed events of one TRANSFER each (R113): TX write, exchange, RX read. -/
def transferEvents (xs : List Xchg) : List Event :=
  xs.flatMap fun x => [.regW 0x44 (txWord x.mosi), .xchg x, .regR 0x48 (txWord x.miso)]

/-! ### What the card makes of bytes sent to it -/

/-- The wire after the bytes have been exchanged in order at chip select `cs`. -/
def Card.extend (c : Card) (cs : Bit) : List Xchg → List Byte → List Xchg
  | w, [] => w
  | w, b :: bs => c.extend cs (w ++ [{ cs := cs, mosi := b, miso := c.answer w cs b }]) bs

/-- The first answer other than 0xFF within `n` polls, and the wire after them (R141). -/
def Card.poll (c : Card) (cs : Bit) : Nat → List Xchg → Result × List Xchg
  | 0, w => (.timeout, w)
  | n + 1, w =>
    let w' := w ++ [{ cs := cs, mosi := 0xFF#8, miso := c.answer w cs 0xFF#8 }]
    if c.answer w cs 0xFF#8 = 0xFF#8 then c.poll cs n w' else (.byte (c.answer w cs 0xFF#8), w')

/-- The result of one command frame followed by a GET_RESULT, and the wire after it (R132). -/
def Card.command (c : Card) (cs : Bit) (w : List Xchg) (idx : Nat) (p : Word) : Result × List Xchg :=
  c.poll cs 100 (c.extend cs w (frameBytes Config.default idx p))

/-! ### States and what operations leave -/

/-- No operation in progress, no exchange in flight, the parameters at R6's values, and the original's unbounded status
poll: where the operations of L1 to L3 are invoked. -/
def State.quiet (s : State) : Prop :=
  s.seq = [] ∧ s.busy = false ∧ s.cfg.AtSpec ∧ s.cfg.transferPollCap = none

/-- `s` after exchanges that brought the wire to `w`, with the trace and the count of draws they left. Everything else
is as in `s`. -/
def State.afterWire (s : State) (w : List Xchg) (tr : List Event) (d : Nat) : State :=
  { s with
    txData := (w.getLast?.map (·.mosi)).getD s.txData
    rxLatch := (w.getLast?.map (·.miso)).getD s.rxLatch
    busy := false
    rxValid := true
    wire := w
    trace := tr
    draws := d }

/-- The outcome `o` of an operation invoked in `s` that only exchanges bytes: the wire is brought to `w`, the observed
trace grows by exactly those TRANSFERs, the reply is `r`, and nothing else changes. -/
def Exchanges (s : State) (w : List Xchg) (r : Reply) (o : Host.Outcome State Fault Refusal) : Prop :=
  ∃ tr d, o = .next ((s.afterWire w tr d).answer r) ∧
    observed tr = observed s.trace ++ transferEvents (w.drop s.wire.length)

/-- The outcome `o` of INIT, or of one of its passes, begun in `s`: chip select and divisor are `cs` and `div`, the wire
is `w`, the observed trace has grown by `evs`, the sequencer is `seq`, the replies `rs` were added, and nothing else
has changed. -/
def InitLeaves (s : State) (cs : Bit) (div : Word) (w : List Xchg) (evs : List Event) (seq : List Frame)
    (rs : List Reply) (o : Host.Outcome State Fault Refusal) : Prop :=
  ∃ tr d, o = .next { s.afterWire w tr d with
      cs := cs, div := div, seq := seq, outcomes := s.outcomes ++ rs } ∧
    observed tr = observed s.trace ++ evs

/-- The outcome `o` of INIT from its step 5 on (R160, R165 to R167), the wire being `w`, `evs` observed so far and `m`
passes of INIT_POLL done: INIT fails, polls again, fails in step 6, or raises the clock and returns 0. -/
def InitFromStepFive (s : State) (cs : Bit) (div : Word) (w : List Xchg) (evs : List Event) (m : Nat)
    (o : Host.Outcome State Fault Refusal) : Prop :=
  let r5 := s.card.command cs w 1 0#32
  let r6 := s.card.command cs r5.2 0x16 s.cfg.blockSize
  let evs5 := evs ++ transferEvents (r5.2.drop w.length)
  let evs6 := evs5 ++ transferEvents (r6.2.drop r5.2.length)
  if r5.1 = .byte 0x01#8 then InitLeaves s cs div r5.2 evs5 [.initPoll (m + 1), .init] [] o
  else if r5.1 ≠ .byte 0x00#8 then
    InitLeaves s cs div r5.2 evs5 [] [.rc (-1) (some (.initFailed r5.1))] o
  else if r6.1 ≠ .byte 0x00#8 then
    InitLeaves s cs div r6.2 evs6 [] [.rc (-1) (some (.blockLenConfigFailed r6.1))] o
  else InitLeaves s cs 4#32 r6.2 (evs6 ++ [.regW 0x54 4#32]) [] [.rc 0 none] o

/-! ### What operations may write -/

/-- Whether an operation may write CS or DIV (R93, R94, R97, R98, R160); no other does (R117, R125, R170). -/
def writesConfig : Instr → Bool
  | .wrCs _ | .wrDiv _ | .setCs _ | .setClock _ | .init => true
  | .wrTx _ | .rdRx | .rdStatus | .transfer _ | .sendCommand _ _ | .getResult => false
  | .expectIdle | .initPoll | .expectReady | .readBlock _ _ => false
  | .cmdReset | .cmdInit | .cmdSetBlockLen | .cmdReadBlock _ => false
  | .dummy | .respBusy | .respIdle | .respReady => false

/-- The addresses an operation may store to: READ_BLOCK's buffer (R66). -/
def storesTo (c : Config) (i : Instr) (a : Nat) : Prop :=
  match i with
  | .readBlock _ dest => dest ≤ a ∧ a < dest + c.blockSize.toNat
  | _ => False

/-- Whether an operation makes exchanges on the wire before it returns (R113, R116). -/
def exchangesBytes : Instr → Bool
  | .wrTx _ | .rdRx | .rdStatus | .wrCs _ | .wrDiv _ | .setCs _ | .setClock _ => false
  | .respBusy | .respIdle | .respReady => false
  | .transfer _ | .sendCommand _ _ | .getResult | .expectIdle | .initPoll | .expectReady | .init => true
  | .readBlock _ _ | .cmdReset | .cmdInit | .cmdSetBlockLen | .cmdReadBlock _ | .dummy => true

/-- The operations that R187 lists as those that cannot fail. -/
def cannotFail : Instr → Bool
  | .wrTx _ | .rdRx | .rdStatus | .wrCs _ | .wrDiv _ | .setCs _ | .setClock _ | .transfer _ => true
  | .sendCommand _ _ | .cmdReset | .cmdInit | .cmdSetBlockLen | .cmdReadBlock _ | .readBlock _ _ => true
  | .dummy | .respBusy | .respIdle | .respReady => false
  | .getResult | .expectIdle | .initPoll | .expectReady | .init => false

/-- The sequencer stacks that operations build (R21): empty, INIT_POLL alone, or INIT_POLL under INIT. -/
def seqLegal : List Frame → Bool
  | [] => true
  | [.initPoll _] => true
  | [.initPoll _, .init] => true
  | _ => false

/-- The invariant of the state. -/
structure Inv (s : State) : Prop where
  /-- The parameters have R6's values. -/
  parameters : s.cfg.AtSpec
  /-- The destination memory is canonical. -/
  memory : s.mem.wf = true
  /-- The wire is the exchanges of the trace (R41). -/
  wire : s.wire = s.trace.filterMap Event.exchanged
  /-- Every TX write is one exchange, in order, but the last while it is in flight (R111, R220). -/
  sent : s.trace.filterMap Event.sentByte = s.wire.map (·.mosi) ++ (if s.busy then [s.txData] else [])
  /-- The latch is valid exactly when some exchange has completed and none is in flight (R23, R29). -/
  valid : s.rxValid = (!s.busy && !s.wire.isEmpty)
  /-- The latch holds what the last exchange received (R23). -/
  latch : ∀ x, s.wire.getLast? = some x → s.rxLatch = x.miso
  /-- The sequencer stack is one that operations build (R21). -/
  sequencer : seqLegal s.seq = true
  /-- No exchange is in flight where a step ends inside an operation (R113). -/
  between : s.seq ≠ [] → s.busy = false
  /-- It is the engine's turn only while an exchange is in flight (R111). -/
  engine : s.turn = .engine → s.busy = true

end Sys2Proof.Machine
end

