-- ==== Sys2Proof/Certificates/Slice0/Obligations.lean ====
section
/-! DEFINITION. The statements for the provers. Each docstring names the rule of spec/ it formalises, or the choice it
rests on. `AtSpec` (Machine/Params.lean) is: the parameters whose value R6 fixes have that value, the OPEN ones any (and
the launch memory, and the reading of `TRANSFER_POLL_CAP`, log entry 19).
`quiet` (Safety.lean) is: no operation in progress, no exchange in flight, `AtSpec`, no cap on status polls. -/

open Sys2Proof Sys2Proof.Machine

/-! ### Encodings -/

/-- R71: a frame is, bit 47 first, the marker `01`, the 6-bit index, the 32-bit parameter and the checksum 0x95. -/
def Obligations.FrameBitLayout : Prop :=
  ∀ (c : Config) (i : BitVec 6) (p : Word), c.AtSpec → ∃ b0 b1 b2 b3 b4 b5 : Byte,
    frameBytes c i.toNat p = [b0, b1, b2, b3, b4, b5] ∧
      b0 ++ b1 ++ b2 ++ b3 ++ b4 ++ b5 = (0b01#2 : BitVec 2) ++ i ++ p ++ (0x95#8 : Byte)

/-- R75: byte 0 first and byte 5 last, the parameter's bytes by shift and mask, most significant first. -/
def Obligations.FrameWireOrder : Prop :=
  ∀ (c : Config) (idx : Nat) (p : Word), c.AtSpec → idx ≤ 63 →
    (frameBytes c idx p).map BitVec.toNat =
      [0x40 + idx, (p.toNat >>> 24) &&& 0xFF, (p.toNat >>> 16) &&& 0xFF, (p.toNat >>> 8) &&& 0xFF,
        p.toNat &&& 0xFF, 0x95]

/-- R71, R74: the decoder reads every index and parameter back out of the frame, and no other six bytes than frames
are read as one. -/
def Obligations.FrameDecodesExactly : Prop :=
  ∀ (c : Config) (bytes : List Byte) (idx : Nat) (p : Word), c.AtSpec →
    (decodeFrame c bytes = some (idx, p) ↔ idx ≤ 63 ∧ bytes = frameBytes c idx p)

/-- Decoding an encoded operation gives it back, for all 23 operations at every operand, under all parameters that make
sense together (`Config.wf`), R6's values among them. The host's data formats are the model's reading of R70 to R72 and
R86 (log entries 16 and 17). -/
def Obligations.DecodeOfEncode : Prop :=
  ∀ (c : Config) (i : Instr), c.wf = true → decode c (encode c i) = .instr i

/-- R52, with the refusals of R53 and R96 (D4, D5): what an aligned 32-bit access is, at every offset and in both
directions. -/
def Obligations.BusAccessDispatch : Prop :=
  ∀ (c : Config) (off : Nat) (v : Word), c.AtSpec → c.regBase % 4 = 0 → off % 4 = 0 →
    decode c (.bus .write (c.regBase + off) 4 v) =
        (if off = 0x44 then .instr (.wrTx v)
        else if off = 0x50 then .instr (.wrCs v)
        else if off = 0x54 then .instr (.wrDiv v)
        else if off = 0x48 ∨ off = 0x4c then .reject .wrongDirection
        else .reject .offsetOutOfScope) ∧
      decode c (.bus .read (c.regBase + off) 4 v) =
        (if off = 0x48 then .instr .rdRx
        else if off = 0x4c then .instr .rdStatus
        else if off = 0x44 ∨ off = 0x50 ∨ off = 0x54 then .reject .wrongDirection
        else .reject .offsetOutOfScope)

/-- R51 (D3): an access at an address that is not a multiple of 4, and an access at a register that is not 32 bits
wide, are refused by name in either direction. Where R53 or R96 names another refusal for the same access (a misaligned
address at another offset, a narrow access against the register's direction), that this one is given is the model's
choice of an order, log entry 15 (DESIGN CHOICE). -/
def Obligations.NarrowOrMisalignedRefused : Prop :=
  ∀ (c : Config) (dir : Dir) (addr width : Nat) (v : Word), c.AtSpec →
    (addr % 4 ≠ 0 → decode c (.bus dir addr width v) = .reject .narrowOrMisalignedRegisterAccess) ∧
      (addr % 4 = 0 → width ≠ 4 → c.regBase ≤ addr →
        addr - c.regBase ∈ [0x44, 0x48, 0x4c, 0x50, 0x54] →
          decode c (.bus dir addr width v) = .reject .narrowOrMisalignedRegisterAccess)

/-- A few words written out from the spec's encodings decode to what they stand for (R70, R78, R79, R85). That a
register word, whose bits are the offset alone, decodes with data 0, and that the byte word 0xFF is DUMMY and not
RESP_BUSY, which has the same pattern, are the model's choices, log entry 16 (DESIGN CHOICE). -/
def Obligations.TableWordsDecode : Prop :=
  decodeTableWord 32 0x44 = some (.wrTx 0#32) ∧ decodeTableWord 32 0x48 = some .rdRx ∧
    decodeTableWord 32 0x4c = some .rdStatus ∧ decodeTableWord 48 0x400000000095 = some .cmdReset ∧
    decodeTableWord 48 0x560000020095 = some .cmdSetBlockLen ∧
    decodeTableWord 48 0x570001240095 = some (.cmdReadBlock 0x00012400#32) ∧
    decodeTableWord 8 0xFF = some .dummy ∧ decodeTableWord 8 0x01 = some .respIdle

/-- R142: the class of a result, by its whole byte value; 0xFF, which R142 says cannot occur, is no result of
GET_RESULT. -/
def Obligations.ResultClasses : Prop :=
  classify (.byte 0x01#8) = .idle ∧ classify (.byte 0x00#8) = .ready ∧ classify .timeout = .timeout ∧
    (∀ b : Byte, 0x02 ≤ b.toNat → b.toNat ≤ 0xFE → classify (.byte b) = .other) ∧
    ∀ (s t : State) (b : Byte), getResult s = .ret (.byte b) t → b ≠ 0xFF#8

/-! ### Layer L0 -/

/-- R90 (D6, D9, D10): with no exchange in flight WR_TX completes; the byte is bits 7:0 whatever the others are, the
exchange is in flight at once, and nothing is sent yet. -/
def Obligations.WrTxStartsExchange : Prop :=
  ∀ (s : State) (v : Word), s.cfg.AtSpec → s.seq = [] → s.busy = false →
    exec (.wrTx v) s = .next { s with
      txData := v.extractLsb' 0 8, busy := true, rxValid := false
      trace := s.trace ++ [.regW 0x44 v], outcomes := s.outcomes ++ [.done] }

/-- R91 (D8): RD_RX completes in every state; while the latch is valid it returns the latched byte zero-extended;
otherwise bits 31:8 are 0 and bits 7:0 are some byte. Nothing but the trace, the reply and the count of draws changes. -/
def Obligations.RdRxReturnsLatch : Prop :=
  ∀ s : State, s.cfg.AtSpec → s.seq = [] → ∃ (b : Byte) (d : Nat), (s.rxValid = true → b = s.rxLatch) ∧
    exec .rdRx s = .next { s with
      trace := s.trace ++ [.regR 0x48 (b.zeroExtend 32)]
      outcomes := s.outcomes ++ [.word (b.zeroExtend 32)], draws := d }

/-- R92 (D7): RD_STATUS completes in every state; bit 0 is 1 exactly when no exchange is in flight, the other bits are
unconstrained, and nothing but the trace, the reply and the count of draws changes. -/
def Obligations.RdStatusShowsCompletion : Prop :=
  ∀ s : State, s.cfg.AtSpec → s.seq = [] → ∃ (v : Word) (d : Nat), v.getLsbD 0 = !s.busy ∧
    exec .rdStatus s = .next { s with
      trace := s.trace ++ [.regR 0x4c v], outcomes := s.outcomes ++ [.word v], draws := d }

/-- R93 and R94 (D10, D11, D12): with no exchange in flight WR_CS of 0 or 1 stores bit 0 and WR_DIV stores all 32
bits; each is one event of the trace and changes nothing else. -/
def Obligations.ConfigWritesStore : Prop :=
  ∀ (s : State) (v : Word), s.cfg.AtSpec → s.seq = [] → s.busy = false →
    (v = 0#32 ∨ v = 1#32 → exec (.wrCs v) s = .next { s with
      cs := v.extractLsb' 0 1, trace := s.trace ++ [.regW 0x50 v], outcomes := s.outcomes ++ [.done] }) ∧
      exec (.wrDiv v) s = .next { s with
        div := v, trace := s.trace ++ [.regW 0x54 v], outcomes := s.outcomes ++ [.done] }

/-- R97: SET_CS is one register write of the zero-extended level, and nothing else. -/
def Obligations.SetCsIsOneWrite : Prop :=
  ∀ (s : State) (level : Bit), s.cfg.AtSpec → s.seq = [] → s.busy = false →
    exec (.setCs level) s = .next { s with
      cs := level, trace := s.trace ++ [.regW 0x50 (level.zeroExtend 32)], outcomes := s.outcomes ++ [.done] }

/-- R98 (the admitted range is D22): SET_CLOCK writes the twice truncated quotient less one, which fits the register,
and nothing else; 400 kHz is 61 and 5 MHz is 4. -/
def Obligations.SetClockWritesDivisor : Prop :=
  (∀ (s : State) (hz : Nat), s.cfg.AtSpec → s.seq = [] → s.busy = false → 1 ≤ hz → hz ≤ 25000000 →
    ∃ d : Word, d.toNat = 50000000 / hz / 2 - 1 ∧
      exec (.setClock hz) s = .next { s with
        div := d, trace := s.trace ++ [.regW 0x54 d], outcomes := s.outcomes ++ [.done] }) ∧
    50000000 / 400000 / 2 - 1 = (61#32 : Word).toNat ∧ 50000000 / 5000000 / 2 - 1 = (4#32 : Word).toNat

/-- The refusals of layer L0 (D10, D11, D22): a TX write, a CS write or a DIV write while an exchange is in flight, a
CS word other than 0 or 1, a clock target out of range. -/
def Obligations.RegisterRefusals : Prop :=
  ∀ (s : State) (v : Word) (level : Bit) (hz : Nat), s.cfg.AtSpec → s.seq = [] →
    (s.busy = true → exec (.wrTx v) s = .refused .txWriteWhileBusy) ∧
      (v ≠ 0#32 → v ≠ 1#32 → exec (.wrCs v) s = .refused .reservedCsValue) ∧
      (s.busy = true → v = 0#32 ∨ v = 1#32 → exec (.wrCs v) s = .refused .configWriteWhileBusy) ∧
      (s.busy = true → exec (.wrDiv v) s = .refused .configWriteWhileBusy) ∧
      (s.busy = true → exec (.setCs level) s = .refused .configWriteWhileBusy) ∧
      (hz = 0 ∨ 25000000 < hz → exec (.setClock hz) s = .refused .clockTargetOutOfRange) ∧
      (s.busy = true → 1 ≤ hz → hz ≤ 25000000 → exec (.setClock hz) s = .refused .configWriteWhileBusy)

/-! ### Layer L1 -/

/-- R111, R113 (D14, D15): TRANSFER completes from a quiet state; it makes one exchange of `b` at the chip select in
force and returns the byte the card gives in that exchange; observed, it is a TX write, the exchange and an RX read. -/
def Obligations.TransferExchangesOneByte : Prop :=
  ∀ (s : State) (b : Byte), s.quiet →
    Exchanges s (s.wire ++ [{ cs := s.cs, mosi := b, miso := s.card.answer s.wire s.cs b }])
        (.byte (s.card.answer s.wire s.cs b)) (exec (.transfer b) s) ∧
      transferEvents [{ cs := s.cs, mosi := b, miso := s.card.answer s.wire s.cs b }] =
        [.regW 0x44 (b.zeroExtend 32),
          .xchg { cs := s.cs, mosi := b, miso := s.card.answer s.wire s.cs b },
          .regR 0x48 ((s.card.answer s.wire s.cs b).zeroExtend 32)]

/-- R114 (D14): in a TRANSFER's whole trace any number of STATUS reads with bit 0 = 0 stand before the exchange, and
exactly one, with bit 0 = 1, after it. The number is a free value. -/
def Obligations.TransferPollsUntilComplete : Prop :=
  ∀ (s : State) (b : Byte), s.quiet → ∃ (t : State) (busy : List Word) (last : Word) (r : Byte),
    exec (.transfer b) s = .next t ∧ (∀ v ∈ busy, v.getLsbD 0 = false) ∧ last.getLsbD 0 = true ∧
      t.trace = s.trace ++ [.regW 0x44 (b.zeroExtend 32)] ++ busy.map (.regR 0x4c ·) ++
        [.xchg { cs := s.cs, mosi := b, miso := r }, .regR 0x4c last, .regR 0x48 (r.zeroExtend 32)]

/-- `TRANSFER_POLL_CAP` set to `cap` (not the original; log entry 19): TRANSFER still has a next state. TransferTimeout
ends it when `n` STATUS reads have seen bit 0 = 0, `n` being `cap + 1` by R113's pseudocode and `cap` by R185's words (at
least 1): both rules are modelled, `Config.capReading` says which holds. Either fewer than `n` reads saw 0 and it exchanged
the byte, or `n` did, it ended with TransferTimeout and the exchange is still in flight. -/
def Obligations.TransferWithPollCap : Prop :=
  ∀ (s : State) (b : Byte) (cap n : Nat), s.cfg.AtSpec → s.seq = [] → s.busy = false →
    s.cfg.transferPollCap = some cap →
    s.cfg.capReading = .exceeded ∧ n = cap + 1 ∨ s.cfg.capReading = .reached ∧ n = max cap 1 →
    (Exchanges s (s.wire ++ [{ cs := s.cs, mosi := b, miso := s.card.answer s.wire s.cs b }])
        (.byte (s.card.answer s.wire s.cs b)) (exec (.transfer b) s) ∧
      ∃ (t : State) (vs : List Word) (last : Word), exec (.transfer b) s = .next t ∧ vs.length < n ∧
        (∀ v ∈ vs, v.getLsbD 0 = false) ∧ last.getLsbD 0 = true ∧
        t.trace = s.trace ++ [.regW 0x44 (b.zeroExtend 32)] ++ vs.map (.regR 0x4c ·) ++
          [.xchg { cs := s.cs, mosi := b, miso := s.card.answer s.wire s.cs b }, .regR 0x4c last,
            .regR 0x48 ((s.card.answer s.wire s.cs b).zeroExtend 32)]) ∨
      ∃ (vs : List Word) (d : Nat), vs.length = n ∧ (∀ v ∈ vs, v.getLsbD 0 = false) ∧
        exec (.transfer b) s = .next { s with
          txData := b, busy := true, rxValid := false, draws := d
          trace := s.trace ++ [.regW 0x44 (b.zeroExtend 32)] ++ vs.map (.regR 0x4c ·)
          outcomes := s.outcomes ++ [.failed .transferTimeout] }

/-- R85: the pseudo-operations are their expansions. -/
def Obligations.PseudoOperationsExpand : Prop :=
  ∀ s : State, s.cfg.AtSpec →
    exec .cmdReset s = exec (.sendCommand 0 0#32) s ∧
      exec .cmdInit s = exec (.sendCommand 1 0#32) s ∧
      exec .cmdSetBlockLen s = exec (.sendCommand 0x16 s.cfg.blockSize) s ∧
      (∀ addr, exec (.cmdReadBlock addr) s = exec (.sendCommand 0x17 addr) s) ∧
      (∀ level, exec (.setCs level) s = exec (.wrCs (level.zeroExtend 32)) s) ∧
      (∀ hz, 1 ≤ hz → hz ≤ 25000000 →
        exec (.setClock hz) s = exec (.wrDiv (BitVec.ofNat 32 (50000000 / hz / 2 - 1))) s) ∧
      exec .dummy s = exec (.transfer 0xFF#8) s

/-- R85, R113 (D14): DUMMY completes from a quiet state, one exchange of 0xFF. -/
def Obligations.DummyExchangesOnes : Prop :=
  ∀ s : State, s.quiet →
    Exchanges s (s.wire ++ [{ cs := s.cs, mosi := 0xFF#8, miso := s.card.answer s.wire s.cs 0xFF#8 }])
      (.byte (s.card.answer s.wire s.cs 0xFF#8)) (exec .dummy s)

/-! ### Layer L2 -/

/-- R125: SEND_COMMAND completes from a quiet state for every index 0 to 63 and every parameter: six exchanges of the
command byte, the parameter's bytes and 0x95, whatever the card answers; CS, DIV and everything else stay. -/
def Obligations.SendCommandSendsSixBytes : Prop :=
  ∀ (s : State) (idx : Nat) (p : Word), s.quiet → idx ≤ 63 →
    Exchanges s
      (s.card.extend s.cs s.wire [0x40#8 ||| BitVec.ofNat 8 idx, p.extractLsb' 24 8, p.extractLsb' 16 8,
        p.extractLsb' 8 8, p.extractLsb' 0 8, 0x95#8])
      .done (exec (.sendCommand idx p) s)

/-- R128, R129, R130, R131: the four command frames complete from a quiet state, each with its own six bytes. -/
def Obligations.CommandFramesSent : Prop :=
  ∀ (s : State) (addr : Word), s.quiet →
    Exchanges s (s.card.extend s.cs s.wire [0x40#8, 0#8, 0#8, 0#8, 0#8, 0x95#8]) .done (exec .cmdReset s) ∧
      Exchanges s (s.card.extend s.cs s.wire [0x41#8, 0#8, 0#8, 0#8, 0#8, 0x95#8]) .done (exec .cmdInit s) ∧
      Exchanges s (s.card.extend s.cs s.wire
          [0x56#8, s.cfg.blockSize.extractLsb' 24 8, s.cfg.blockSize.extractLsb' 16 8,
            s.cfg.blockSize.extractLsb' 8 8, s.cfg.blockSize.extractLsb' 0 8, 0x95#8]) .done
        (exec .cmdSetBlockLen s) ∧
      Exchanges s (s.card.extend s.cs s.wire
          [0x57#8, addr.extractLsb' 24 8, addr.extractLsb' 16 8, addr.extractLsb' 8 8, addr.extractLsb' 0 8,
            0x95#8]) .done
        (exec (.cmdReadBlock addr) s)

/-- R141: GET_RESULT completes from a quiet state with 1 to 100 exchanges of 0xFF; every byte received before the last
is 0xFF; it returns the last byte if that is not 0xFF, and Timeout exactly when 100 exchanges all gave 0xFF. -/
def Obligations.GetResultFirstNonBusy : Prop :=
  ∀ s : State, s.quiet → ∃ (xs : List Xchg) (x : Xchg) (r : Result),
    Exchanges s (s.wire ++ xs ++ [x]) (.result r) (exec .getResult s) ∧
      s.wire ++ xs ++ [x] = s.card.extend s.cs s.wire (List.replicate (xs.length + 1) 0xFF#8) ∧
      xs.length + 1 ≤ 100 ∧ (∀ y ∈ xs, y.miso = 0xFF#8) ∧
      (r = .byte x.miso ∧ x.miso ≠ 0xFF#8 ∨ r = .timeout ∧ x.miso = 0xFF#8 ∧ xs.length + 1 = 100)

/-- R79, R142 (that a received byte handed to the decoder yields its class and changes nothing else is the model's
choice, log entry 18): RESP_BUSY, RESP_IDLE and RESP_READY complete. -/
def Obligations.ResponseBytesClassified : Prop :=
  ∀ s : State, s.seq = [] →
    exec .respBusy s = .next { s with outcomes := s.outcomes ++ [.cls .busy] } ∧
      exec .respIdle s = .next { s with outcomes := s.outcomes ++ [.cls .idle] } ∧
      exec .respReady s = .next { s with outcomes := s.outcomes ++ [.cls .ready] }

/-! ### Validators -/

/-- R145: EXPECT_IDLE completes from a quiet state: one CMD_RESET frame and one GET_RESULT; ok on 0x01, ResetFailed with
the result otherwise; it raises without changing anything else (R189). -/
def Obligations.ExpectIdleAcceptsOnlyIdle : Prop :=
  ∀ s : State, s.quiet →
    let r := s.card.command s.cs s.wire 0 0#32
    Exchanges s r.2 (if r.1 = .byte 0x01#8 then .ok else .failed (.resetFailed r.1)) (exec .expectIdle s)

/-- R147: EXPECT_READY completes from a quiet state: one CMD_SET_BLOCK_LEN frame and one GET_RESULT; ok on 0x00,
BlockLenConfigFailed with the result otherwise. -/
def Obligations.ExpectReadyAcceptsOnlyReady : Prop :=
  ∀ s : State, s.quiet →
    let r := s.card.command s.cs s.wire 0x16 s.cfg.blockSize
    Exchanges s r.2 (if r.1 = .byte 0x00#8 then .ok else .failed (.blockLenConfigFailed r.1))
      (exec .expectReady s)

/-- R146 (D18, D19; the position in `seq` is log entry 1): a pass of INIT_POLL with `m` iterations done, the cap not set
or not `m`, the first pass by `exec` and a later one by `resume`, sends one CMD_INIT frame and makes one GET_RESULT: 0x00
completes it, 0x01 leaves it at its loop head, any other result is InitFailed. -/
def Obligations.InitPollPass : Prop :=
  ∀ (s : State) (m : Nat) (o : Host.Outcome State Fault Refusal), s.busy = false →
    s.cfg.AtSpec → s.cfg.transferPollCap = none → s.cfg.initPollCap ≠ some m →
    (s.seq = [] ∧ m = 0 ∧ o = exec .initPoll s ∨ s.seq = [.initPoll m] ∧ o = resume s) →
      let r := s.card.command s.cs s.wire 1 0#32
      ∃ tr d, observed tr = observed s.trace ++ transferEvents (r.2.drop s.wire.length) ∧
        o = .next { s.afterWire r.2 tr d with
          seq := if r.1 = .byte 0x01#8 then [.initPoll (m + 1)] else []
          outcomes := s.outcomes ++
            (if r.1 = .byte 0x01#8 then []
            else if r.1 = .byte 0x00#8 then [.ok] else [.failed (.initFailed r.1)]) }

/-- R146 with `INIT_POLL_CAP` set (not the original; the position in `seq` is log entry 1): at its loop head with that
many iterations done, at once if the cap is 0, INIT_POLL ends with InitFailed(Capped) and sends nothing; INIT around it
returns -1. -/
def Obligations.InitPollCapped : Prop :=
  ∀ (s : State) (m : Nat), s.cfg.initPollCap = some m →
    (s.seq = [] → m = 0 →
        exec .initPoll s = .next { s with outcomes := s.outcomes ++ [.failed .initFailedCapped] }) ∧
      (s.seq = [.initPoll m] →
        resume s = .next { s with
          seq := [], outcomes := s.outcomes ++ [.failed .initFailedCapped] }) ∧
      (s.seq = [.initPoll m, .init] →
        resume s = .next { s with
          seq := [], outcomes := s.outcomes ++ [.rc (-1) (some .initFailedCapped)] })

/-- R146, R192 (D19, D14): against a card that answers every CMD_INIT with 0x01, INIT never returns: however many steps
are taken, it is still in INIT_POLL, the slow divisor stands, and nothing is reported. -/
def Obligations.InitPollNeverGivesUp : Prop :=
  ∀ (s : State) (m : Nat), s.seq = [.initPoll m, .init] → s.busy = false →
    s.cfg.AtSpec → s.cfg.transferPollCap = none → s.cfg.initPollCap = none →
    (∀ w, (s.card.command s.cs w 1 0#32).1 = .byte 0x01#8) →
      ∀ k, ∃ t, Sys2Proof.core.run k s = .next t ∧ t.seq = [.initPoll (m + k), .init] ∧ t.div = s.div ∧
        t.cs = s.cs ∧ t.busy = false ∧ t.outcomes = s.outcomes

/-! ### Layer L3 -/

/-- R160, R161, R164, R166, R167 (the rest of step 2 and step 5 are D26, D18 and D19): INIT from a quiet state: the
divisor 61, chip select off, ten exchanges of 0xFF, chip select on, RESET answered 0x01 or -1; with `INIT_POLL_CAP` 0 then
-1; else step 5 on (Safety.lean `InitFromStepFive`), at first and at every later pass of INIT_POLL, the cap not reached
(InitPollCapped says what it does where it is). -/
def Obligations.InitRunsItsSteps : Prop :=
  (∀ s : State, s.quiet →
    let w := s.card.extend 0#1 s.wire (List.replicate 10 0xFF#8)
    let r4 := s.card.command 1#1 w 0 0#32
    let evs := [.regW 0x54 61#32, .regW 0x50 0#32] ++ transferEvents (w.drop s.wire.length) ++
      [.regW 0x50 1#32] ++ transferEvents (r4.2.drop w.length)
    if r4.1 ≠ .byte 0x01#8 then
      InitLeaves s 1#1 61#32 r4.2 evs [] [.rc (-1) (some (.resetFailed r4.1))] (exec .init s)
    else if s.cfg.initPollCap = some 0 then
      InitLeaves s 1#1 61#32 r4.2 evs [] [.rc (-1) (some .initFailedCapped)] (exec .init s)
    else InitFromStepFive s 1#1 61#32 r4.2 evs 0 (exec .init s)) ∧
  ∀ (s : State) (m : Nat), s.seq = [.initPoll m, .init] → s.busy = false →
    s.cfg.AtSpec → s.cfg.transferPollCap = none → s.cfg.initPollCap ≠ some m →
      InitFromStepFive s s.cs s.div s.wire [] m (resume s)

/-- R169 (derived there from R160 to R168; the passes of INIT_POLL are log entry 1): the register writes other than TX
that INIT adds to the trace. Its first `exec` adds the four of success exactly when it returns 0 there, the first three
otherwise; every later pass adds the fourth exactly when it returns 0 there, nothing otherwise. -/
def Obligations.InitConfigWrites : Prop :=
  (∀ s t : State, s.quiet → exec .init s = .next t →
    t.trace.filterMap Event.configWrite = s.trace.filterMap Event.configWrite ++
      [(0x54, 61#32), (0x50, 0#32), (0x50, 1#32)] ++
      (if t.outcomes = s.outcomes ++ [.rc 0 none] then [(0x54, 4#32)] else [])) ∧
  ∀ (s t : State) (m : Nat), s.seq = [.initPoll m, .init] → s.busy = false → s.cfg.AtSpec →
    s.cfg.transferPollCap = none → resume s = .next t →
      t.trace.filterMap Event.configWrite = s.trace.filterMap Event.configWrite ++
        (if t.outcomes = s.outcomes ++ [.rc 0 none] then [(0x54, 4#32)] else [])

/-- R170, with the count of R171 and the contents of R172 (`TRAILING_DISCARD` is D20): READ_BLOCK completes from a
quiet state for every buffer the launch memory admits: one frame, one GET_RESULT whatever it gives, BLOCK_SIZE
exchanges of 0xFF each stored in turn, the trailing ones dropped; it reports nothing. -/
def Obligations.ReadBlockFillsBuffer : Prop :=
  ∀ (s : State) (addr : Word) (dest : Nat), s.quiet → s.cfg.admits dest s.cfg.blockSize.toNat = true →
    let w2 := (s.card.command s.cs s.wire 0x17 addr).2
    let w3 := s.card.extend s.cs w2 (List.replicate s.cfg.blockSize.toNat 0xFF#8)
    let w4 := s.card.extend s.cs w3 (List.replicate s.cfg.trailingDiscard 0xFF#8)
    ∃ tr d m, exec (.readBlock addr dest) s = .next
        { s.afterWire w4 tr d with mem := m, outcomes := s.outcomes ++ [.done] } ∧
      observed tr = observed s.trace ++ transferEvents (w4.drop s.wire.length) ∧
      (∀ i, i < s.cfg.blockSize.toNat → m.read (dest + i) = w3[w2.length + i]?.map (·.miso)) ∧
      ∀ a, a < dest ∨ dest + s.cfg.blockSize.toNat ≤ a → m.read a = s.mem.read a

/-- The refusals of layers L1 to L3 (D16, D27, D10): an index above 63; a buffer the launch memory does not admit; and,
while an exchange is in flight, every other operation of these layers, in range and with an admitted buffer (DUMMY and the
CMD_ operations are then PseudoOperationsExpand's). That a bad buffer is refused before the first access, also with an
exchange in flight, and that a buffer overlapping REG_BASE to REG_BASE + 0x57 is one, are the model's choices, log entry
13 (DESIGN CHOICE). With `INIT_POLL_CAP` 0 INIT_POLL ends before it sends (InitPollCapped). -/
def Obligations.SequenceRefusals : Prop :=
  ∀ (s : State) (idx : Nat) (p : Word) (b : Byte) (addr : Word) (dest : Nat), s.cfg.AtSpec → s.seq = [] →
    (63 < idx → exec (.sendCommand idx p) s = .refused .indexOutOfRange) ∧
      (s.cfg.admits dest s.cfg.blockSize.toNat = false →
        exec (.readBlock addr dest) s = .refused .badDestination) ∧
      (s.busy = true → exec (.transfer b) s = .refused .txWriteWhileBusy ∧
        (idx ≤ 63 → exec (.sendCommand idx p) s = .refused .txWriteWhileBusy) ∧
        exec .getResult s = .refused .txWriteWhileBusy ∧ exec .expectIdle s = .refused .txWriteWhileBusy ∧
        (s.cfg.initPollCap ≠ some 0 → exec .initPoll s = .refused .txWriteWhileBusy) ∧
        exec .expectReady s = .refused .txWriteWhileBusy ∧ exec .init s = .refused .configWriteWhileBusy ∧
        (s.cfg.admits dest s.cfg.blockSize.toNat = true →
          exec (.readBlock addr dest) s = .refused .txWriteWhileBusy))

/-! ### The step -/

/-- Log entries 11 and 12 say how: with no operation in progress and the host's move, when its next operation decodes to a
well-formed instruction, `step` is `exec` of that instruction at the state without it; after it only the turn is
settled. -/
def Obligations.StepRunsDecoded : Prop :=
  ∀ (s : State) (r : Request) (rest : List Request) (i : Instr), s.seq = [] → s.host = r :: rest →
    s.busy = false ∨ s.turn = .host → decode s.cfg r = .instr i → i.wf s.cfg = true →
      step s = onNext reschedule (exec i { s with host := rest })

/-- A step goes on with the operation in progress, and nothing else is issued meanwhile (R21, R224, D25). -/
def Obligations.StepResumesOperation : Prop :=
  ∀ s : State, s.seq ≠ [] → s.busy = false →
    step s = onNext reschedule (resume s) ∧ ∀ i, exec i s = .refused .concurrentInvocation

/-- R111 (D1, D9, D15): the engine's move. With an exchange in flight and the engine's turn, or nothing left for the
host, a step makes exactly one exchange, of the byte written, with the card's answer to it; the latch takes it in the
same step that ends the exchange. -/
def Obligations.EngineCompletesExchange : Prop :=
  ∀ s : State, s.busy = true → s.turn = .engine ∨ s.seq = [] ∧ s.host = [] →
    let x : Xchg := { cs := s.cs, mosi := s.txData, miso := s.card.answer s.wire s.cs s.txData }
    step s = .next { s with
      rxLatch := x.miso, rxValid := true, busy := false, turn := .host
      wire := s.wire ++ [x], trace := s.trace ++ [.xchg x] }

/-- Log entry 11: at the end of a run (R232) a step changes nothing. -/
def Obligations.EndedRunRests : Prop :=
  ∀ s : State, s.seq = [] → s.host = [] → s.busy = false → s.turn = .host → step s = .next s

/-- A word of the table placed by `withFetchWord` is what the very next step decodes and runs. -/
def Obligations.FetchedWordRuns : Prop :=
  ∀ (s : State) (nbits w : Nat) (r : Request) (i : Instr), tableRequest s.cfg nbits w = some r →
    decode s.cfg r = .instr i →
      step (s.withFetchWord nbits w) = onNext reschedule (exec i { s with seq := [], turn := .host })

/-! ### Frames -/

/-- R66, R117: an operation that has a next state leaves every byte of memory as it was, but the bytes of READ_BLOCK's
buffer. -/
def Obligations.MemoryFrame : Prop :=
  ∀ (i : Instr) (s t : State), exec i s = .next t →
    ∀ a, ¬ storesTo s.cfg i a → t.mem.read a = s.mem.read a

/-- R117, R125, R170, R226: only WR_CS, WR_DIV, SET_CS, SET_CLOCK and INIT write CS or DIV, whatever else the operation
does and however it ends. -/
def Obligations.ConfigFrame : Prop :=
  ∀ (i : Instr) (s t : State), s.cfg.AtSpec → exec i s = .next t → writesConfig i = false →
    t.cs = s.cs ∧ t.div = s.div ∧
      t.trace.filterMap Event.configWrite = s.trace.filterMap Event.configWrite

/-- R54, R116: an operation of layer L0 and a classified byte leave the wire, the latch and the memory as they were;
only WR_TX touches the byte to send and the two flags. -/
def Obligations.RegisterAccessFrame : Prop :=
  ∀ (i : Instr) (s t : State), exec i s = .next t → exchangesBytes i = false →
    t.wire = s.wire ∧ t.rxLatch = s.rxLatch ∧ t.mem = s.mem ∧ t.seq = [] ∧
      ((∀ v, i ≠ .wrTx v) → t.txData = s.txData ∧ t.busy = s.busy ∧ t.rxValid = s.rxValid)

/-- No step writes the card or the parameters of the run; the wire, the trace and the outcomes only grow; the host's
operations are taken one at a time, in order (R40, R60, R112, R222). -/
def Obligations.StepOnlyAppends : Prop :=
  ∀ s t : State, step s = .next t →
    t.cfg = s.cfg ∧ t.card = s.card ∧ s.trace <+: t.trace ∧ s.wire <+: t.wire ∧ s.outcomes <+: t.outcomes ∧
      (t.host = s.host ∨ ∃ r, s.host = r :: t.host)

/-- R94, R117 (D12): the divisor has no effect on anything else: an operation begun with another divisor has the same
next state, but for the divisor. -/
def Obligations.DivisorHasNoEffect : Prop :=
  ∀ (i : Instr) (s t : State) (d : Word), exec i s = .next t →
    ∃ t', exec i { s with div := d } = .next t' ∧ { t' with div := t.div } = t

/-- R113, R125, R141, R160, R170: by default an operation other than WR_TX returns with no exchange in flight, if none
was when it was invoked. -/
def Obligations.ReturnsWithNothingInFlight : Prop :=
  ∀ (i : Instr) (s t : State), exec i s = .next t → s.busy = false → s.cfg.transferPollCap = none →
    (∀ v, i ≠ .wrTx v) → t.busy = false

/-- R187: the operations it lists cannot fail, with default parameters: an operation that has a next state gives one
reply, which is a value or nothing and no failure outcome; READ_BLOCK's is nothing. A refusal is not a failure. -/
def Obligations.OperationsThatCannotFail : Prop :=
  ∀ (i : Instr) (s t : State), exec i s = .next t → cannotFail i = true → s.cfg.transferPollCap = none →
    ∃ r, t.outcomes = s.outcomes ++ [r] ∧ (r = .done ∨ (∃ v, r = .word v) ∨ ∃ b, r = .byte b) ∧
      ((∃ addr dest, i = .readBlock addr dest) → r = .done)

/-! ### Invariants -/

/-- Every step keeps the invariant of the state (Safety.lean `Inv`): the parameters at R6's values; canonical memory; the
wire is the trace's exchanges (R41); every TX write is exactly one exchange, in order, but the one in flight (R111, R220);
the latch is valid exactly after a completed exchange and holds its byte (R23, R29); the sequencer's position is legal
(R21). -/
def Obligations.StepKeepsInv : Prop :=
  ∀ s t : State, Inv s → step s = .next t → Inv t

/-- The invariant holds at reset. -/
def Obligations.ResetHasInv : Prop := Inv State.reset

/-- R185, R189 (that a malformed sequencer is a fault is log entry 22): where the invariant holds no step faults: a
failure outcome is a reply, never a stop. -/
def Obligations.InvStepNeverFaults : Prop :=
  ∀ (s : State) (f : Fault), Inv s → step s ≠ .fault f

/-- R163, R225: whenever INIT stands at its step 5's loop head, which is where a step can end inside INIT (log entry 1),
chip select is asserted and the divisor is the slow one; every step keeps it. It says nothing of INIT's steps 1 to 4, which
lie inside one step; in step 2 chip select is deasserted (R162). -/
def Obligations.InitInProgressIsSlow : Prop :=
  ∀ s t : State, s.cfg.AtSpec → (Frame.init ∈ s.seq → s.cs = 1#1 ∧ s.div = 61#32) → step s = .next t →
    Frame.init ∈ t.seq → t.cs = 1#1 ∧ t.div = 61#32

/-- R112 (D15): a scripted card answers the `n`-th exchange of the run with its `n`-th byte, whatever was sent; every
step keeps it. -/
def Obligations.ScriptedCardInOrder : Prop :=
  ∀ (s t : State) (bytes : List Byte) (after : Byte), s.card = .script bytes after →
    (∀ n x, s.wire[n]? = some x → x.miso = bytes.getD n after) → step s = .next t →
      ∀ n x, t.wire[n]? = some x → x.miso = bytes.getD n after

/-- R210, R232 (`busy = 0` at reset is the spec's decision D13; the values of cs, div, rxLatch and txData are the
model's, log entry 7, and those of REG_BASE, the launch memory and the reading of the cap log entries 9, 13 and 19; none is
stated here): what reset leaves, the parameters at R6's values and defaults, for which STATUS bit 0 reads 1. -/
def Obligations.ResetState : Prop :=
  State.reset.cfg = { Config.default with
      regBase := State.reset.cfg.regBase, capReading := State.reset.cfg.capReading
      hostMem := State.reset.cfg.hostMem } ∧
    State.reset.busy = false ∧ State.reset.rxValid = false ∧ State.reset.wire = [] ∧ State.reset.trace = [] ∧
    State.reset.seq = [] ∧
    ∃ t v, exec .rdStatus State.reset = .next t ∧ t.outcomes = [.word v] ∧ v.getLsbD 0 = true

/-! ### Parameters and bytes -/

/-- R6: the value of each parameter it fixes, and the defaults of the OPEN ones (REG_BASE has none). -/
def Obligations.ParameterValues : Prop :=
  (∀ c : Config, c.AtSpec ↔
    c.systemClockHz = 50000000 ∧ c.regWidth = 32 ∧ c.offTx = 0x44 ∧ c.offRx = 0x48 ∧ c.offStatus = 0x4c ∧
      c.offCs = 0x50 ∧ c.offDiv = 0x54 ∧ c.csAssert = 1#1 ∧ c.csDeassert = 0#1 ∧ c.frameMarker = 0x40#8 ∧
      c.checksum = 0x95#8 ∧ c.dummy = 0xFF#8 ∧ c.resultRetries = 100 ∧ c.powerupTransfers = 10 ∧
      c.initHz = 400000 ∧ c.runHz = 5000000 ∧ c.cmdReset = 0 ∧ c.cmdInit = 1 ∧ c.cmdSetBlockLen = 0x16 ∧
      c.cmdReadBlock = 0x17) ∧
    Config.default.AtSpec ∧ Config.default.blockSize = 512#32 ∧ Config.default.trailingDiscard = 1 ∧
    Config.default.transferPollCap = none ∧ Config.default.initPollCap = none

/-- The bytes outside the four rows. R82: a received byte 0x02 to 0xFE is legal and of the class other; that the decoder
answers it without an operation is the model's choice, log entry 18. That a sent byte other than 0xFF is a TRANSFER of
it, and 0xFF DUMMY, is log entry 16. (Both DESIGN CHOICE.) -/
def Obligations.OtherBytesDecode : Prop :=
  ∀ (c : Config) (b : Byte), c.AtSpec →
    (0x02 ≤ b.toNat → b.toNat ≤ 0xFE → decode c (.byteIn b) = .otherResponse b) ∧
      (b ≠ 0xFF#8 → decode c (.byteOut b) = .instr (.transfer b)) ∧
      decode c (.byteOut 0xFF#8) = .instr .dummy

/-- What a step does with a received byte 0x02 to 0xFE (log entry 18, DESIGN CHOICE): it hands the class other to the host,
takes the byte from the host's list and settles the turn, and nothing else. -/
def Obligations.OtherResponseClassified : Prop :=
  ∀ (s : State) (b : Byte) (rest : List Request), s.seq = [] → s.host = .byteIn b :: rest →
    s.busy = false ∨ s.turn = .host → 0x02 ≤ b.toNat → b.toNat ≤ 0xFE →
      step s = .next (reschedule { s with host := rest, outcomes := s.outcomes ++ [.cls .other] })
end

