-- ==== Sys2Proof/Laws/Params.lean ====
section
/-! SUPPORT. What `Config.AtSpec` says of each parameter, and of what the operations compute from the parameters. -/

namespace Sys2Proof

variable {c : Config}

theorem Config.systemClockHz_atSpec (h : c.AtSpec) : c.systemClockHz = 50000000 := congrArg Config.systemClockHz h
theorem Config.regWidth_atSpec (h : c.AtSpec) : c.regWidth = 32 := congrArg Config.regWidth h
theorem Config.offTx_atSpec (h : c.AtSpec) : c.offTx = 0x44 := congrArg Config.offTx h
theorem Config.offRx_atSpec (h : c.AtSpec) : c.offRx = 0x48 := congrArg Config.offRx h
theorem Config.offStatus_atSpec (h : c.AtSpec) : c.offStatus = 0x4c := congrArg Config.offStatus h
theorem Config.offCs_atSpec (h : c.AtSpec) : c.offCs = 0x50 := congrArg Config.offCs h
theorem Config.offDiv_atSpec (h : c.AtSpec) : c.offDiv = 0x54 := congrArg Config.offDiv h
theorem Config.csAssert_atSpec (h : c.AtSpec) : c.csAssert = 1#1 := congrArg Config.csAssert h
theorem Config.csDeassert_atSpec (h : c.AtSpec) : c.csDeassert = 0#1 := by
  rw [Config.csDeassert, Config.csAssert_atSpec h]; rfl
theorem Config.frameMarker_atSpec (h : c.AtSpec) : c.frameMarker = 0x40#8 := congrArg Config.frameMarker h
theorem Config.checksum_atSpec (h : c.AtSpec) : c.checksum = 0x95#8 := congrArg Config.checksum h
theorem Config.dummy_atSpec (h : c.AtSpec) : c.dummy = 0xFF#8 := congrArg Config.dummy h
theorem Config.resultRetries_atSpec (h : c.AtSpec) : c.resultRetries = 100 := congrArg Config.resultRetries h
theorem Config.powerupTransfers_atSpec (h : c.AtSpec) : c.powerupTransfers = 10 := congrArg Config.powerupTransfers h
theorem Config.initHz_atSpec (h : c.AtSpec) : c.initHz = 400000 := congrArg Config.initHz h
theorem Config.runHz_atSpec (h : c.AtSpec) : c.runHz = 5000000 := congrArg Config.runHz h
theorem Config.cmdReset_atSpec (h : c.AtSpec) : c.cmdReset = 0 := congrArg Config.cmdReset h
theorem Config.cmdInit_atSpec (h : c.AtSpec) : c.cmdInit = 1 := congrArg Config.cmdInit h
theorem Config.cmdSetBlockLen_atSpec (h : c.AtSpec) : c.cmdSetBlockLen = 0x16 := congrArg Config.cmdSetBlockLen h
theorem Config.cmdReadBlock_atSpec (h : c.AtSpec) : c.cmdReadBlock = 0x17 := congrArg Config.cmdReadBlock h
theorem Config.regBytes_atSpec (h : c.AtSpec) : c.regBytes = 4 := by
  rw [Config.regBytes, Config.regWidth_atSpec h]
theorem Config.maxClockHz_atSpec (h : c.AtSpec) : c.maxClockHz = 25000000 := by
  rw [Config.maxClockHz, Config.systemClockHz_atSpec h]

/-- The clock targets SET_CLOCK admits (R98). -/
theorem Config.clockTargetLegal_iff (c : Config) (hz : Nat) :
    c.clockTargetLegal hz = true ↔ 1 ≤ hz ∧ hz ≤ c.maxClockHz := by
  unfold Config.clockTargetLegal
  rw [Bool.and_eq_true, bne_iff_ne, decide_eq_true_iff]
  omega

/-- A frame at R6's marker and checksum (R75). -/
theorem frameBytes_atSpec (h : c.AtSpec) (idx : Nat) (p : Word) :
    frameBytes c idx p = frameBytes Config.default idx p := by
  simp only [frameBytes, commandByte, Config.frameMarker_atSpec h, Config.checksum_atSpec h]; rfl

/-- The divisor at R6's clock (R98). -/
theorem Machine.divisor_atSpec (h : c.AtSpec) (hz : Nat) :
    Machine.divisor c hz = BitVec.ofNat 32 (50000000 / hz / 2 - 1) := by
  rw [Machine.divisor, Config.systemClockHz_atSpec h]

end Sys2Proof
end

