-- ==== Sys2Proof/Laws/State.lean ====
section
/-! SUPPORT. One lemma per field per named update of the state, so that no later proof unfolds a record update. -/

namespace Sys2Proof.Machine

section Emit
variable (s : State) (e : Event)
@[simp] theorem State.emit_txData : (s.emit e).txData = s.txData := rfl
@[simp] theorem State.emit_rxLatch : (s.emit e).rxLatch = s.rxLatch := rfl
@[simp] theorem State.emit_busy : (s.emit e).busy = s.busy := rfl
@[simp] theorem State.emit_rxValid : (s.emit e).rxValid = s.rxValid := rfl
@[simp] theorem State.emit_cs : (s.emit e).cs = s.cs := rfl
@[simp] theorem State.emit_div : (s.emit e).div = s.div := rfl
@[simp] theorem State.emit_wire : (s.emit e).wire = s.wire := rfl
@[simp] theorem State.emit_trace : (s.emit e).trace = s.trace ++ [e] := rfl
@[simp] theorem State.emit_seq : (s.emit e).seq = s.seq := rfl
@[simp] theorem State.emit_mem : (s.emit e).mem = s.mem := rfl
@[simp] theorem State.emit_outcomes : (s.emit e).outcomes = s.outcomes := rfl
@[simp] theorem State.emit_host : (s.emit e).host = s.host := rfl
@[simp] theorem State.emit_card : (s.emit e).card = s.card := rfl
@[simp] theorem State.emit_cfg : (s.emit e).cfg = s.cfg := rfl
@[simp] theorem State.emit_draws : (s.emit e).draws = s.draws := rfl
@[simp] theorem State.emit_turn : (s.emit e).turn = s.turn := rfl
end Emit

section Drawn
variable (s : State) (n : Nat)
@[simp] theorem State.drawn_txData : (s.drawn n).txData = s.txData := rfl
@[simp] theorem State.drawn_rxLatch : (s.drawn n).rxLatch = s.rxLatch := rfl
@[simp] theorem State.drawn_busy : (s.drawn n).busy = s.busy := rfl
@[simp] theorem State.drawn_rxValid : (s.drawn n).rxValid = s.rxValid := rfl
@[simp] theorem State.drawn_cs : (s.drawn n).cs = s.cs := rfl
@[simp] theorem State.drawn_div : (s.drawn n).div = s.div := rfl
@[simp] theorem State.drawn_wire : (s.drawn n).wire = s.wire := rfl
@[simp] theorem State.drawn_trace : (s.drawn n).trace = s.trace := rfl
@[simp] theorem State.drawn_seq : (s.drawn n).seq = s.seq := rfl
@[simp] theorem State.drawn_mem : (s.drawn n).mem = s.mem := rfl
@[simp] theorem State.drawn_outcomes : (s.drawn n).outcomes = s.outcomes := rfl
@[simp] theorem State.drawn_host : (s.drawn n).host = s.host := rfl
@[simp] theorem State.drawn_card : (s.drawn n).card = s.card := rfl
@[simp] theorem State.drawn_cfg : (s.drawn n).cfg = s.cfg := rfl
@[simp] theorem State.drawn_draws : (s.drawn n).draws = s.draws + n := rfl
@[simp] theorem State.drawn_turn : (s.drawn n).turn = s.turn := rfl
end Drawn

section Answer
variable (s : State) (r : Reply)
@[simp] theorem State.answer_txData : (s.answer r).txData = s.txData := rfl
@[simp] theorem State.answer_rxLatch : (s.answer r).rxLatch = s.rxLatch := rfl
@[simp] theorem State.answer_busy : (s.answer r).busy = s.busy := rfl
@[simp] theorem State.answer_rxValid : (s.answer r).rxValid = s.rxValid := rfl
@[simp] theorem State.answer_cs : (s.answer r).cs = s.cs := rfl
@[simp] theorem State.answer_div : (s.answer r).div = s.div := rfl
@[simp] theorem State.answer_wire : (s.answer r).wire = s.wire := rfl
@[simp] theorem State.answer_trace : (s.answer r).trace = s.trace := rfl
@[simp] theorem State.answer_seq : (s.answer r).seq = s.seq := rfl
@[simp] theorem State.answer_mem : (s.answer r).mem = s.mem := rfl
@[simp] theorem State.answer_outcomes : (s.answer r).outcomes = s.outcomes ++ [r] := rfl
@[simp] theorem State.answer_host : (s.answer r).host = s.host := rfl
@[simp] theorem State.answer_card : (s.answer r).card = s.card := rfl
@[simp] theorem State.answer_cfg : (s.answer r).cfg = s.cfg := rfl
@[simp] theorem State.answer_draws : (s.answer r).draws = s.draws := rfl
@[simp] theorem State.answer_turn : (s.answer r).turn = s.turn := rfl
end Answer

section Engine
variable (s : State)
@[simp] theorem engineStep_txData : (engineStep s).txData = s.txData := rfl
@[simp] theorem engineStep_rxLatch : (engineStep s).rxLatch = s.exchange.miso := rfl
@[simp] theorem engineStep_busy : (engineStep s).busy = false := rfl
@[simp] theorem engineStep_rxValid : (engineStep s).rxValid = true := rfl
@[simp] theorem engineStep_cs : (engineStep s).cs = s.cs := rfl
@[simp] theorem engineStep_div : (engineStep s).div = s.div := rfl
@[simp] theorem engineStep_wire : (engineStep s).wire = s.wire ++ [s.exchange] := rfl
@[simp] theorem engineStep_trace : (engineStep s).trace = s.trace ++ [.xchg s.exchange] := rfl
@[simp] theorem engineStep_seq : (engineStep s).seq = s.seq := rfl
@[simp] theorem engineStep_mem : (engineStep s).mem = s.mem := rfl
@[simp] theorem engineStep_outcomes : (engineStep s).outcomes = s.outcomes := rfl
@[simp] theorem engineStep_host : (engineStep s).host = s.host := rfl
@[simp] theorem engineStep_card : (engineStep s).card = s.card := rfl
@[simp] theorem engineStep_cfg : (engineStep s).cfg = s.cfg := rfl
@[simp] theorem engineStep_draws : (engineStep s).draws = s.draws := rfl
@[simp] theorem engineStep_turn : (engineStep s).turn = s.turn := rfl
@[simp] theorem exchange_cs : s.exchange.cs = s.cs := rfl
@[simp] theorem exchange_mosi : s.exchange.mosi = s.txData := rfl
@[simp] theorem exchange_miso : s.exchange.miso = s.card.answer s.wire s.cs s.txData := rfl
end Engine

section AfterWire
variable (s : State) (w : List Xchg) (tr : List Event) (d : Nat)
@[simp] theorem State.afterWire_busy : (s.afterWire w tr d).busy = false := rfl
@[simp] theorem State.afterWire_rxValid : (s.afterWire w tr d).rxValid = true := rfl
@[simp] theorem State.afterWire_cs : (s.afterWire w tr d).cs = s.cs := rfl
@[simp] theorem State.afterWire_div : (s.afterWire w tr d).div = s.div := rfl
@[simp] theorem State.afterWire_wire : (s.afterWire w tr d).wire = w := rfl
@[simp] theorem State.afterWire_trace : (s.afterWire w tr d).trace = tr := rfl
@[simp] theorem State.afterWire_seq : (s.afterWire w tr d).seq = s.seq := rfl
@[simp] theorem State.afterWire_mem : (s.afterWire w tr d).mem = s.mem := rfl
@[simp] theorem State.afterWire_outcomes : (s.afterWire w tr d).outcomes = s.outcomes := rfl
@[simp] theorem State.afterWire_host : (s.afterWire w tr d).host = s.host := rfl
@[simp] theorem State.afterWire_card : (s.afterWire w tr d).card = s.card := rfl
@[simp] theorem State.afterWire_cfg : (s.afterWire w tr d).cfg = s.cfg := rfl
@[simp] theorem State.afterWire_draws : (s.afterWire w tr d).draws = d := rfl
@[simp] theorem State.afterWire_turn : (s.afterWire w tr d).turn = s.turn := rfl

/-- Exchanges after exchanges: the second wire stands. -/
theorem State.afterWire_afterWire (v : List Xchg) (tr' : List Event) (d' : Nat) (h : w ≠ []) :
    (s.afterWire v tr' d').afterWire w tr d = s.afterWire w tr d := by
  simp [State.afterWire, List.getLast?_eq_some_getLast h]
end AfterWire

section Reschedule
variable (s : State)
@[simp] theorem reschedule_txData : (reschedule s).txData = s.txData := by unfold reschedule; split <;> rfl
@[simp] theorem reschedule_rxLatch : (reschedule s).rxLatch = s.rxLatch := by unfold reschedule; split <;> rfl
@[simp] theorem reschedule_busy : (reschedule s).busy = s.busy := by unfold reschedule; split <;> rfl
@[simp] theorem reschedule_rxValid : (reschedule s).rxValid = s.rxValid := by unfold reschedule; split <;> rfl
@[simp] theorem reschedule_cs : (reschedule s).cs = s.cs := by unfold reschedule; split <;> rfl
@[simp] theorem reschedule_div : (reschedule s).div = s.div := by unfold reschedule; split <;> rfl
@[simp] theorem reschedule_wire : (reschedule s).wire = s.wire := by unfold reschedule; split <;> rfl
@[simp] theorem reschedule_trace : (reschedule s).trace = s.trace := by unfold reschedule; split <;> rfl
@[simp] theorem reschedule_seq : (reschedule s).seq = s.seq := by unfold reschedule; split <;> rfl
@[simp] theorem reschedule_mem : (reschedule s).mem = s.mem := by unfold reschedule; split <;> rfl
@[simp] theorem reschedule_outcomes : (reschedule s).outcomes = s.outcomes := by unfold reschedule; split <;> rfl
@[simp] theorem reschedule_host : (reschedule s).host = s.host := by unfold reschedule; split <;> rfl
@[simp] theorem reschedule_card : (reschedule s).card = s.card := by unfold reschedule; split <;> rfl
@[simp] theorem reschedule_cfg : (reschedule s).cfg = s.cfg := by unfold reschedule; split <;> rfl
/-- The engine gets the turn only while an exchange is in flight (R111). -/
theorem reschedule_turn (h : (reschedule s).turn = .engine) : s.busy = true := by
  unfold reschedule at h; split at h <;> simp_all
end Reschedule

end Sys2Proof.Machine
end

