-- ==== Sys2Proof/Laws/Ops.lean ====
section
/-! SUPPORT. One lemma per shared operation that says everything it can do: how a sequence goes on, what the register
accesses answer, and when an invoked operation has a next state. -/

namespace Sys2Proof.Machine

section Sequence
variable {α β γ : Type}

@[simp] theorem Run.bind_ret (a : α) (s : State) (k : α → State → Run β) :
    (Run.ret a s).bind k = k a s := rfl
@[simp] theorem Run.bind_raised (f : Failure) (s : State) (k : α → State → Run β) :
    (Run.raised f s : Run α).bind k = .raised f s := rfl
@[simp] theorem Run.bind_refused (q : Refusal) (k : α → State → Run β) :
    (Run.refused q : Run α).bind k = .refused q := rfl

theorem Run.bind_assoc (x : Run α) (k : α → State → Run β) (l : β → State → Run γ) :
    (x.bind k).bind l = x.bind fun a s => (k a s).bind l := by
  cases x <;> rfl

/-- Wherever a sequence ends, by returning or by a failure outcome, its state satisfies `P`. -/
def Run.Ends (P : State → Prop) : Run α → Prop
  | .ret _ s => P s
  | .raised _ s => P s
  | .refused _ => True

theorem Run.Ends.bind {P Q : State → Prop} {x : Run α} {k : α → State → Run β} (hx : x.Ends P)
    (hPQ : ∀ s, P s → Q s) (hk : ∀ a s, P s → (k a s).Ends Q) : (x.bind k).Ends Q := by
  cases x with
  | ret a s => exact hk a s hx
  | raised f s => exact hPQ s hx
  | refused q => trivial

theorem Run.Ends.mono {P Q : State → Prop} {x : Run α} (hx : x.Ends P) (h : ∀ s, P s → Q s) : x.Ends Q := by
  cases x with
  | ret a s => exact h s hx
  | raised f s => exact h s hx
  | refused q => trivial

end Sequence

/-! ### Register accesses -/

theorem wrTx_idle {s : State} (v : Word) (h : s.busy = false) :
    wrTx v s = .ret ()
      { s.emit (.regW s.cfg.offTx v) with txData := lowByte v, busy := true, rxValid := false } := by
  simp [wrTx, h]

theorem wrTx_busy {s : State} (v : Word) (h : s.busy = true) : wrTx v s = .refused .txWriteWhileBusy := by
  simp [wrTx, h]

theorem rdRx_valid {s : State} (h : s.rxValid = true) :
    rdRx s = .ret (txWord s.rxLatch) (s.emit (.regR s.cfg.offRx (txWord s.rxLatch))) := by
  simp [rdRx, h]

theorem rdRx_invalid {s : State} (h : s.rxValid = false) :
    rdRx s = .ret (txWord (Config.freeRx s.draws))
      ((s.drawn 1).emit (.regR s.cfg.offRx (txWord (Config.freeRx s.draws)))) := by
  simp [rdRx, h]

theorem wrCs_idle {s : State} {v : Word} (hv : Param.csLegal v = true) (h : s.busy = false) :
    wrCs v s = .ret () { s.emit (.regW s.cfg.offCs v) with cs := csLevel v } := by
  simp [wrCs, hv, h]

theorem wrDiv_idle {s : State} (v : Word) (h : s.busy = false) :
    wrDiv v s = .ret () { s.emit (.regW s.cfg.offDiv v) with div := v } := by
  simp [wrDiv, h]

theorem csLegal_csWord (level : Bit) : Param.csLegal (csWord level) = true := by
  revert level; decide

@[simp] theorem csLevel_csWord (level : Bit) : csLevel (csWord level) = level := by
  revert level; decide

@[simp] theorem lowByte_txWord (b : Byte) : lowByte (txWord b) = b := by
  simp [lowByte, txWord]

@[simp] theorem complete_false : complete false = 1#1 := rfl
@[simp] theorem complete_true : complete true = 0#1 := rfl

/-- Bit 0 of a STATUS word is `COMPLETE` (R27). -/
theorem statusWord_complete (busy : Bool) (u : BitVec 31) : (statusWord busy u).setWidth 1 = complete busy := by
  unfold statusWord
  apply BitVec.eq_of_getLsbD_eq
  intro i hi
  obtain rfl : i = 0 := by omega
  rw [BitVec.getLsbD_setWidth, BitVec.getLsbD_append]
  cases busy <;> rfl

/-- A STATUS word as software tests it (R92): bit 0 is 1 exactly when no exchange is in flight. -/
theorem statusWord_bit (busy : Bool) (u : BitVec 31) : (statusWord busy u).getLsbD 0 = !busy := by
  have h := congrArg (BitVec.getLsbD · 0) (statusWord_complete busy u)
  simp at h
  simp [h]
  cases busy <;> rfl

theorem setClock_idle {s : State} {hz : Nat} (h1 : 1 ≤ hz) (h2 : hz ≤ s.cfg.maxClockHz) (h : s.busy = false) :
    setClock hz s = .ret ()
      { s.emit (.regW s.cfg.offDiv (divisor s.cfg hz)) with div := divisor s.cfg hz } := by
  rw [setClock, if_pos ((s.cfg.clockTargetLegal_iff hz).mpr ⟨h1, h2⟩), wrDiv_idle _ h]

theorem setCs_idle {s : State} (level : Bit) (h : s.busy = false) :
    setCs level s = .ret () { s.emit (.regW s.cfg.offCs (csWord level)) with cs := level } := by
  rw [setCs, wrCs_idle (csLegal_csWord level) h, csLevel_csWord]

/-- SET_CLOCK at R6's clock (R98). -/
theorem setClock_atSpec {s : State} {hz : Nat} (ha : s.cfg.AtSpec) (h1 : 1 ≤ hz) (h2 : hz ≤ 25000000)
    (h : s.busy = false) :
    setClock hz s = .ret () { s.emit (.regW 0x54 (BitVec.ofNat 32 (50000000 / hz / 2 - 1))) with
      div := BitVec.ofNat 32 (50000000 / hz / 2 - 1) } := by
  rw [setClock_idle h1 (by rwa [Config.maxClockHz_atSpec ha]) h, divisor_atSpec ha, Config.offDiv_atSpec ha]

/-- SET_CS at R6's offset (R97). -/
theorem setCs_atSpec {s : State} (level : Bit) (ha : s.cfg.AtSpec) (h : s.busy = false) :
    setCs level s = .ret () { s.emit (.regW 0x50 (csWord level)) with cs := level } := by
  rw [setCs_idle level h, Config.offCs_atSpec ha]

/-! ### Invoking -/

@[simp] theorem onNext_next (f : State → State) (s : State) : onNext f (.next s) = .next (f s) := rfl

theorem onNext_eq_next {f : State → State} {o : Host.Outcome State Fault Refusal} {t : State} :
    onNext f o = .next t ↔ ∃ u, o = .next u ∧ t = f u := by
  cases o <;> simp [onNext, eq_comm]

theorem whenIdle_eq_next {s t : State} {k : Host.Outcome State Fault Refusal} :
    whenIdle s k = .next t ↔ s.seq = [] ∧ k = .next t := by
  unfold whenIdle; split <;> simp_all

theorem conclude_eq_next {x : Run Reply} {t : State} :
    conclude x = .next t ↔
      (∃ r s, x = .ret r s ∧ t = s.answer r) ∨ ∃ f s, x = .raised f s ∧ t = s.answer (.failed f) := by
  cases x <;> simp [conclude, eq_comm]

/-- An invoked operation has a next state exactly when none is in progress and its sequence ends, with its value's
reply or with its failure. -/
theorem invoke_eq_next {α : Type} {reply : α → Reply} {body : State → Run α} {s t : State} :
    invoke reply body s = .next t ↔ s.seq = [] ∧
      ((∃ a u, body s = .ret a u ∧ t = u.answer (reply a)) ∨
        ∃ f u, body s = .raised f u ∧ t = u.answer (.failed f)) := by
  unfold invoke
  rw [whenIdle_eq_next, conclude_eq_next]
  cases body s <;> simp

theorem invoke_ret {α : Type} {reply : α → Reply} {body : State → Run α} {s u : State} {a : α}
    (hs : s.seq = []) (h : body s = .ret a u) : invoke reply body s = .next (u.answer (reply a)) :=
  invoke_eq_next.mpr ⟨hs, .inl ⟨a, u, h, rfl⟩⟩

theorem invoke_raised {α : Type} {reply : α → Reply} {body : State → Run α} {s u : State} {f : Failure}
    (hs : s.seq = []) (h : body s = .raised f u) : invoke reply body s = .next (u.answer (.failed f)) :=
  invoke_eq_next.mpr ⟨hs, .inr ⟨f, u, h, rfl⟩⟩

theorem invoke_refused {α : Type} {reply : α → Reply} {body : State → Run α} {s : State} {q : Refusal}
    (hs : s.seq = []) (h : body s = .refused q) : invoke reply body s = .refused q := by
  simp [invoke, whenIdle, hs, h, conclude]

end Sys2Proof.Machine
end

