-- ==== Sys2Proof/Laws/Wire.lean ====
section
/-! SUPPORT. What TRANSFER and the sequences over it do from a state with no exchange in flight and no poll cap, the
parameters at R6's values: the exact next state, up to the STATUS reads and the count of draws. -/

namespace Sys2Proof.Machine

/-! ### The observed trace -/

@[simp] theorem observed_append (a b : List Event) : observed (a ++ b) = observed a ++ observed b :=
  List.filter_append ..

@[simp] theorem observed_statusReads (busy : Bool) (n k : Nat) : observed (statusReads 0x4c busy n k) = [] := by
  induction n generalizing k with
  | zero => rfl
  | succ n ih => simpa [statusReads, observed, Event.isStatusRead] using ih (k + 1)

@[simp] theorem observed_regW (off : Nat) (v : Word) (tr : List Event) :
    observed (.regW off v :: tr) = .regW off v :: observed tr := rfl
@[simp] theorem observed_xchg (x : Xchg) (tr : List Event) :
    observed (.xchg x :: tr) = .xchg x :: observed tr := rfl
@[simp] theorem observed_rx (v : Word) (tr : List Event) :
    observed (.regR 0x48 v :: tr) = .regR 0x48 v :: observed tr := rfl
@[simp] theorem observed_status (v : Word) (tr : List Event) :
    observed (.regR 0x4c v :: tr) = observed tr := rfl
@[simp] theorem observed_nil : observed [] = [] := rfl

@[simp] theorem transferEvents_nil : transferEvents [] = [] := rfl
@[simp] theorem transferEvents_append (a b : List Xchg) :
    transferEvents (a ++ b) = transferEvents a ++ transferEvents b := List.flatMap_append

/-- `n + 1` STATUS reads are one RD_STATUS and then `n` (R113). -/
theorem pollStatus_succ (n : Nat) (s : State) :
    rdStatus s = .ret (statusWord s.busy (Config.freeStatus s.draws))
        ((s.drawn 1).emit (.regR s.cfg.offStatus (statusWord s.busy (Config.freeStatus s.draws)))) ∧
      pollStatus (n + 1) s = pollStatus n
        ((s.drawn 1).emit (.regR s.cfg.offStatus (statusWord s.busy (Config.freeStatus s.draws)))) := by
  refine ⟨rfl, ?_⟩
  simp [pollStatus, statusReads, State.emit, State.drawn, Nat.add_comm n 1, ← Nat.add_assoc]

/-! ### The wire after bytes -/

@[simp] theorem extend_nil (c : Card) (cs : Bit) (w : List Xchg) : c.extend cs w [] = w := rfl
theorem extend_cons (c : Card) (cs : Bit) (w : List Xchg) (b : Byte) (bs : List Byte) :
    c.extend cs w (b :: bs) = c.extend cs (w ++ [{ cs := cs, mosi := b, miso := c.answer w cs b }]) bs := rfl

theorem extend_append (c : Card) (cs : Bit) (w : List Xchg) (as bs : List Byte) :
    c.extend cs w (as ++ bs) = c.extend cs (c.extend cs w as) bs := by
  induction as generalizing w with
  | nil => rfl
  | cons a as ih => simp [extend_cons, ih]

/-- The wire only grows: the bytes' exchanges stand after what was there. -/
theorem extend_eq_append (c : Card) (cs : Bit) (w : List Xchg) (bs : List Byte) :
    ∃ xs, c.extend cs w bs = w ++ xs ∧ xs.map (·.mosi) = bs ∧ ∀ x ∈ xs, x.cs = cs := by
  induction bs generalizing w with
  | nil => exact ⟨[], by simp⟩
  | cons b bs ih =>
    obtain ⟨xs, h, hm, hc⟩ := ih (w ++ [{ cs := cs, mosi := b, miso := c.answer w cs b }])
    exact ⟨_ :: xs, by rw [extend_cons, h, List.append_assoc]; rfl, by simp [hm], by simpa using hc⟩

theorem poll_eq_append (c : Card) (cs : Bit) (n : Nat) (w : List Xchg) :
    ∃ xs, (c.poll cs n w).2 = w ++ xs := by
  induction n generalizing w with
  | zero => exact ⟨[], by simp [Card.poll]⟩
  | succ n ih =>
    unfold Card.poll
    split
    · obtain ⟨xs, h⟩ := ih (w ++ [{ cs := cs, mosi := 0xFF#8, miso := c.answer w cs 0xFF#8 }])
      exact ⟨_ :: xs, by rw [h, List.append_assoc]; rfl⟩
    · exact ⟨_, rfl⟩

/-! ### From a state with no exchange in flight -/

/-- The value `a` comes back after exchanges that brought the wire to `w`, everything else as in `s`. -/
def Returns {α : Type} (s : State) (w : List Xchg) (a : α) (x : Run α) : Prop :=
  ∃ tr d, x = .ret a (s.afterWire w tr d) ∧
    observed tr = observed s.trace ++ transferEvents (w.drop s.wire.length)

/-- The end of a TRANSFER, exactly (R113). -/
theorem finishTransfer_eq (s : State) :
    finishTransfer s = .ret s.exchange.miso
      { engineStep s with
        trace := s.trace ++ [.xchg s.exchange,
          .regR s.cfg.offStatus (statusWord false (Config.freeStatus s.draws)),
          .regR s.cfg.offRx (txWord s.exchange.miso)]
        draws := s.draws + 1 } := by
  unfold finishTransfer rdStatus
  rw [Run.bind_ret, rdRx_valid (by rfl), Run.bind_ret, State.emit_rxLatch, State.drawn_rxLatch,
    engineStep_rxLatch, lowByte_txWord]
  simp [State.emit, State.drawn, engineStep]

/-- TRANSFER, exactly, where no cap cuts the polls short: the free number of STATUS reads see bit 0 = 0, then the
engine has stepped (R113, R114). -/
theorem transfer_exact {s : State} (b : Byte) (hb : s.busy = false)
    (hc : ∀ cap, s.cfg.transferPollCap = some cap → Config.freeWait s.draws < s.cfg.timeoutReads cap) :
    transfer b s = .ret (s.card.answer s.wire s.cs b)
      (s.afterWire (s.wire ++ [{ cs := s.cs, mosi := b, miso := s.card.answer s.wire s.cs b }])
        (s.trace ++ .regW s.cfg.offTx (txWord b) ::
            statusReads s.cfg.offStatus true (Config.freeWait s.draws) (s.draws + 1) ++
          [.xchg { cs := s.cs, mosi := b, miso := s.card.answer s.wire s.cs b },
            .regR s.cfg.offStatus
              (statusWord false (Config.freeStatus (s.draws + 1 + Config.freeWait s.draws))),
            .regR s.cfg.offRx (txWord (s.card.answer s.wire s.cs b))])
        (s.draws + 1 + Config.freeWait s.draws + 1)) := by
  unfold transfer
  rw [wrTx_idle _ hb]
  simp only [Run.bind_ret, State.drawn_cfg, State.emit_cfg, State.emit_draws]
  split
  · rw [finishTransfer_eq]
    simp [pollStatus, State.emit, State.drawn, engineStep, State.exchange, State.afterWire]
  · next cap h =>
    refine (if_neg (Nat.not_le.mpr (hc cap h))).trans ?_
    rw [finishTransfer_eq]
    simp [pollStatus, State.emit, State.drawn, engineStep, State.exchange, State.afterWire]

/-- TRANSFER, exactly, where the cap cuts the polls short (R113): the exchange is still in flight. -/
theorem transfer_capped {s : State} {cap : Nat} (b : Byte) (hb : s.busy = false)
    (hc : s.cfg.transferPollCap = some cap) (hw : s.cfg.timeoutReads cap ≤ Config.freeWait s.draws) :
    transfer b s = .raised .transferTimeout
      { s with
        txData := b
        busy := true
        rxValid := false
        trace := s.trace ++ .regW s.cfg.offTx (txWord b) ::
          statusReads s.cfg.offStatus true (s.cfg.timeoutReads cap) (s.draws + 1)
        draws := s.draws + 1 + s.cfg.timeoutReads cap } := by
  unfold transfer
  rw [wrTx_idle _ hb]
  simp only [Run.bind_ret, State.drawn_cfg, State.emit_cfg, State.emit_draws, hc]
  refine (if_pos hw).trans ?_
  simp [raise, pollStatus, State.emit, State.drawn]

/-- TRANSFER's effect up to STATUS reads and draws (R113, R111). -/
theorem transfer_returns {s : State} (b : Byte) (hb : s.busy = false) (ha : s.cfg.AtSpec)
    (hc : s.cfg.transferPollCap = none) :
    Returns s (s.wire ++ [{ cs := s.cs, mosi := b, miso := s.card.answer s.wire s.cs b }])
      (s.card.answer s.wire s.cs b) (transfer b s) :=
  ⟨_, _, transfer_exact b hb (by simp [hc]), by
    simp [transferEvents, Config.offTx_atSpec ha, Config.offRx_atSpec ha, Config.offStatus_atSpec ha]⟩

/-- DUMMY (R85). -/
theorem transferDummy_returns {s : State} (hb : s.busy = false) (ha : s.cfg.AtSpec)
    (hc : s.cfg.transferPollCap = none) :
    Returns s (s.wire ++ [{ cs := s.cs, mosi := 0xFF#8, miso := s.card.answer s.wire s.cs 0xFF#8 }])
      (s.card.answer s.wire s.cs 0xFF#8) (transferDummy s) := by
  rw [transferDummy, Config.dummy_atSpec ha]
  exact transfer_returns 0xFF#8 hb ha hc

/-- A state after exchanges is one to go on from. -/
theorem Returns.bind {α β : Type} {s : State} {w v : List Xchg} {a : α} {b : β} {x : Run α}
    {k : α → State → Run β} (hx : Returns s w a x) (hw : ∃ xs, w = s.wire ++ xs)
    (hv : ∃ xs, v = w ++ xs ∧ v ≠ [])
    (hk : ∀ tr d, Returns (s.afterWire w tr d) v b (k a (s.afterWire w tr d))) : Returns s v b (x.bind k) := by
  obtain ⟨tr, d, rfl, ho⟩ := hx
  obtain ⟨xs, rfl⟩ := hw
  obtain ⟨ys, rfl, hne⟩ := hv
  obtain ⟨tr', d', h, ho'⟩ := hk tr d
  refine ⟨tr', d', ?_, ?_⟩
  · rw [Run.bind_ret, h, State.afterWire_afterWire _ _ _ _ _ _ _ hne]
  · rw [ho', State.afterWire_trace, ho]
    simp

/-- A list of TRANSFERs, at least one, brings the wire to the card's extension by them. -/
theorem transferAll_returns {s : State} {bs : List Byte} (hne : bs ≠ []) (hb : s.busy = false)
    (ha : s.cfg.AtSpec) (hc : s.cfg.transferPollCap = none) :
    Returns s (s.card.extend s.cs s.wire bs) () (transferAll bs s) := by
  induction bs generalizing s with
  | nil => contradiction
  | cons b bs ih =>
    unfold transferAll
    rw [extend_cons]
    obtain ⟨xs, hxs, -⟩ := extend_eq_append s.card s.cs
      (s.wire ++ [{ cs := s.cs, mosi := b, miso := s.card.answer s.wire s.cs b }]) bs
    refine (transfer_returns b hb ha hc).bind ⟨_, rfl⟩ ⟨xs, hxs, by simp [hxs]⟩ fun tr d => ?_
    cases bs with
    | nil => exact ⟨tr, d, by simp [transferAll, State.afterWire_afterWire], by simp⟩
    | cons b' bs' => exact ih (by simp) rfl ha hc

/-- GET_RESULT's polls (R141), at least one. -/
theorem pollResult_returns {s : State} (n : Nat) (hb : s.busy = false) (ha : s.cfg.AtSpec)
    (hc : s.cfg.transferPollCap = none) :
    Returns s (s.card.poll s.cs (n + 1) s.wire).2 (s.card.poll s.cs (n + 1) s.wire).1
      (pollResult (n + 1) s) := by
  induction n generalizing s with
  | zero =>
    unfold pollResult Card.poll
    refine (transferDummy_returns hb ha hc).bind ⟨_, rfl⟩ ⟨[], ?_⟩ fun tr d => ?_ <;>
      by_cases h : s.card.answer s.wire s.cs 0xFF#8 = 0xFF#8
    · simp [Card.poll, h]
    · simp [h]
    · exact ⟨tr, d, by simp [Card.poll, Param.busyByte, h, pollResult, State.afterWire_afterWire],
        by simp [Card.poll, h]⟩
    · exact ⟨tr, d, by simp [Param.busyByte, h, State.afterWire_afterWire],
        by simp [h]⟩
  | succ n ih =>
    unfold pollResult Card.poll
    by_cases h : s.card.answer s.wire s.cs 0xFF#8 = 0xFF#8
    · obtain ⟨xs, hxs⟩ := poll_eq_append s.card s.cs (n + 1)
        (s.wire ++ [{ cs := s.cs, mosi := 0xFF#8, miso := s.card.answer s.wire s.cs 0xFF#8 }])
      refine (transferDummy_returns hb ha hc).bind ⟨_, rfl⟩ ⟨xs, ?_, ?_⟩ fun tr d => ?_
      · simpa [h] using hxs
      · simp only [h, if_true] at hxs ⊢; rw [hxs]; simp
      · simp only [Param.busyByte, h, if_true]
        have := ih (s := s.afterWire
          (s.wire ++ [{ cs := s.cs, mosi := 0xFF#8, miso := 0xFF#8 }]) tr d) rfl ha hc
        simpa using this
    · refine (transferDummy_returns hb ha hc).bind ⟨_, rfl⟩ ⟨[], ?_⟩ fun tr d => ?_
      · simp [h]
      · exact ⟨tr, d, by simp [h, Param.busyByte, State.afterWire_afterWire],
          by simp [h]⟩

/-- GET_RESULT (R141): 100 polls. -/
theorem getResult_returns {s : State} (hb : s.busy = false) (ha : s.cfg.AtSpec)
    (hc : s.cfg.transferPollCap = none) :
    Returns s (s.card.poll s.cs 100 s.wire).2 (s.card.poll s.cs 100 s.wire).1 (getResult s) := by
  rw [getResult, Config.resultRetries_atSpec ha]
  exact pollResult_returns 99 hb ha hc

theorem frameBytes_ne_nil (c : Config) (idx : Nat) (p : Word) : frameBytes c idx p ≠ [] := by simp [frameBytes]

/-- SEND_COMMAND in range (R125): six exchanges. -/
theorem sendCommand_returns {s : State} {idx : Nat} (p : Word) (hi : idx ≤ 63) (hb : s.busy = false)
    (ha : s.cfg.AtSpec) (hc : s.cfg.transferPollCap = none) :
    Returns s (s.card.extend s.cs s.wire (frameBytes Config.default idx p)) () (sendCommand idx p s) := by
  rw [sendCommand, if_pos (by simpa [Param.maxIndex] using hi), frameBytes_atSpec ha]
  exact transferAll_returns (frameBytes_ne_nil _ idx p) hb ha hc

/-- The four command frames at R6's indices (R128 to R131). -/
theorem sendReset_atSpec {s : State} (ha : s.cfg.AtSpec) : sendReset s = sendCommand 0 0#32 s := by
  rw [sendReset, Config.cmdReset_atSpec ha]

theorem sendInit_atSpec {s : State} (ha : s.cfg.AtSpec) : sendInit s = sendCommand 1 0#32 s := by
  rw [sendInit, Config.cmdInit_atSpec ha]

theorem sendSetBlockLen_atSpec {s : State} (ha : s.cfg.AtSpec) :
    sendSetBlockLen s = sendCommand 0x16 s.cfg.blockSize s := by
  rw [sendSetBlockLen, Config.cmdSetBlockLen_atSpec ha]

theorem sendReadBlock_atSpec {s : State} (ha : s.cfg.AtSpec) (addr : Word) :
    sendReadBlock addr s = sendCommand 0x17 addr s := by
  rw [sendReadBlock, Config.cmdReadBlock_atSpec ha]

/-- The wire after a frame is not empty, and the command's polls stand after it. -/
theorem command_eq_append (c : Card) (cs : Bit) (w : List Xchg) (idx : Nat) (p : Word) :
    ∃ xs, (c.command cs w idx p).2 = c.extend cs w (frameBytes Config.default idx p) ++ xs ∧
      (c.command cs w idx p).2 ≠ [] := by
  obtain ⟨xs, h⟩ := poll_eq_append c cs 100 (c.extend cs w (frameBytes Config.default idx p))
  obtain ⟨ys, hy, hm, -⟩ := extend_eq_append c cs w (frameBytes Config.default idx p)
  refine ⟨xs, h, ?_⟩
  have : ys ≠ [] := by rintro rfl; exact frameBytes_ne_nil _ idx p (by simpa using hm.symm)
  rw [Card.command, h, hy]
  simp [this]

/-- A frame and the GET_RESULT after it (R132). -/
theorem command_returns {s : State} {idx : Nat} (p : Word) (hi : idx ≤ 63) (hb : s.busy = false)
    (ha : s.cfg.AtSpec) (hc : s.cfg.transferPollCap = none) :
    Returns s (s.card.command s.cs s.wire idx p).2 (s.card.command s.cs s.wire idx p).1
      ((sendCommand idx p s).bind fun _ s => getResult s) := by
  obtain ⟨xs, h, -⟩ := extend_eq_append s.card s.cs s.wire (frameBytes Config.default idx p)
  refine (sendCommand_returns p hi hb ha hc).bind ⟨xs, h⟩ (command_eq_append ..) fun tr d => ?_
  exact getResult_returns (s := s.afterWire (s.card.extend s.cs s.wire (frameBytes Config.default idx p)) tr d)
    rfl ha hc

end Sys2Proof.Machine
end

