-- ==== Sys2Proof/Laws/Driver.lean ====
section
/-! SUPPORT. What the pieces of INIT and READ_BLOCK do from a state with no exchange in flight and no poll cap
(44_driver_sequences.md, 43_sd_response.md): one pass of INIT_POLL, the steps before and after it, the data transfers. -/

namespace Sys2Proof.Machine

/-- One pass of INIT_POLL's loop (R146): one frame and one GET_RESULT, then the three cases. -/
theorem pollOnce_quiet {s : State} (m : Nat) (hb : s.busy = false) (ha : s.cfg.AtSpec)
    (hc : s.cfg.transferPollCap = none) (hi : s.cfg.initPollCap ≠ some m) :
    let r := s.card.command s.cs s.wire 1 0#32
    ∃ tr d, observed tr = observed s.trace ++ transferEvents (r.2.drop s.wire.length) ∧
      pollOnce m s =
        if r.1 = .byte 0x00#8 then .ret .ready (s.afterWire r.2 tr d)
        else if r.1 = .byte 0x01#8 then .ret (.again (m + 1)) (s.afterWire r.2 tr d)
        else .raised (.initFailed r.1) (s.afterWire r.2 tr d) := by
  obtain ⟨tr, d, h, ho⟩ := command_returns (s := s) (idx := 1) 0#32 (by decide) hb ha hc
  refine ⟨tr, d, ho, ?_⟩
  have he : pollOnce m s = ((sendCommand 1 0#32 s).bind fun _ s => getResult s).bind fun r s =>
      if r = .byte Param.readyByte then .ret .ready s
      else if r = .byte Param.idleByte then .ret (.again (m + 1)) s else raise (.initFailed r) s := by
    rw [Run.bind_assoc, pollOnce, if_neg hi, sendInit_atSpec ha]
  rw [he, h]; rfl

/-- EXPECT_IDLE (R145). -/
theorem expectIdle_quiet {s : State} (hb : s.busy = false) (ha : s.cfg.AtSpec)
    (hc : s.cfg.transferPollCap = none) :
    let r := s.card.command s.cs s.wire 0 0#32
    ∃ tr d, observed tr = observed s.trace ++ transferEvents (r.2.drop s.wire.length) ∧
      expectIdle s =
        if r.1 = .byte 0x01#8 then .ret () (s.afterWire r.2 tr d)
        else .raised (.resetFailed r.1) (s.afterWire r.2 tr d) := by
  obtain ⟨tr, d, h, ho⟩ := command_returns (s := s) (idx := 0) 0#32 (by decide) hb ha hc
  refine ⟨tr, d, ho, ?_⟩
  have he : expectIdle s = ((sendCommand 0 0#32 s).bind fun _ s => getResult s).bind fun r s =>
      if r = .byte Param.idleByte then .ret () s else raise (.resetFailed r) s := by
    rw [Run.bind_assoc, expectIdle, sendReset_atSpec ha]
  rw [he, h]; rfl

/-- EXPECT_READY (R147). -/
theorem expectReady_quiet {s : State} (hb : s.busy = false) (ha : s.cfg.AtSpec)
    (hc : s.cfg.transferPollCap = none) :
    let r := s.card.command s.cs s.wire 0x16 s.cfg.blockSize
    ∃ tr d, observed tr = observed s.trace ++ transferEvents (r.2.drop s.wire.length) ∧
      expectReady s =
        if r.1 = .byte 0x00#8 then .ret () (s.afterWire r.2 tr d)
        else .raised (.blockLenConfigFailed r.1) (s.afterWire r.2 tr d) := by
  obtain ⟨tr, d, h, ho⟩ := command_returns (s := s) (idx := 0x16) s.cfg.blockSize (by decide) hb ha hc
  refine ⟨tr, d, ho, ?_⟩
  have he : expectReady s =
      ((sendCommand 0x16 s.cfg.blockSize s).bind fun _ s => getResult s).bind fun r s =>
        if r = .byte Param.readyByte then .ret () s else raise (.blockLenConfigFailed r) s := by
    rw [Run.bind_assoc, expectReady, sendSetBlockLen_atSpec ha]
  rw [he, h]; rfl

/-- The data transfers of READ_BLOCK (R66, R170) from a state after exchanges: each received byte is stored in turn, and
nothing outside the `n` bytes is. -/
theorem readBytes_returns {s : State} (n a : Nat) {w : List Xchg} {tr : List Event} {d : Nat} {m : Memory}
    (hw : w ≠ []) (ha : s.cfg.AtSpec) (hc : s.cfg.transferPollCap = none) :
    let w' := s.card.extend s.cs w (List.replicate n 0xFF#8)
    ∃ tr' d' m', readBytes n a { s.afterWire w tr d with mem := m } =
        .ret () { s.afterWire w' tr' d' with mem := m' } ∧
      observed tr' = observed tr ++ transferEvents (w'.drop w.length) ∧
      (∀ i, i < n → m'.read (a + i) = w'[w.length + i]?.map (·.miso)) ∧
      ∀ b, b < a ∨ a + n ≤ b → m'.read b = m.read b := by
  dsimp only
  induction n generalizing a w tr d m with
  | zero => exact ⟨tr, d, m, rfl, by simp, by simp, by simp⟩
  | succ n ih =>
    obtain ⟨tr1, d1, h1, o1⟩ := transferDummy_returns (s := { s.afterWire w tr d with mem := m }) rfl ha hc
    simp only [readBytes, h1, Run.bind_ret]
    set x : Xchg := ⟨s.cs, 0xFF#8, s.card.answer w s.cs 0xFF#8⟩
    have he : ({ ({ s.afterWire w tr d with mem := m } : State).afterWire (w ++ [x]) tr1 d1 with
          mem := m.write a x.miso } : State) =
        { s.afterWire (w ++ [x]) tr1 d1 with mem := m.write a x.miso } := by
      simp [State.afterWire]
    obtain ⟨xs, hx, -⟩ := extend_eq_append s.card s.cs (w ++ [x]) (List.replicate n 0xFF#8)
    obtain ⟨tr', d', m', h2, o2, h3, h4⟩ :=
      ih (a + 1) (w := w ++ [x]) (tr := tr1) (d := d1) (m := m.write a x.miso) (by simp)
    refine ⟨tr', d', m', ?_, ?_, ?_, ?_⟩
    · show readBytes n (a + 1) { ({ s.afterWire w tr d with mem := m } : State).afterWire (w ++ [x]) tr1 d1 with
        mem := m.write a x.miso } = _
      rw [he, h2]; rfl
    · rw [o2, o1, List.replicate_succ, extend_cons]
      show _ = _ ++ transferEvents (List.drop w.length (s.card.extend s.cs (w ++ [x]) _))
      rw [hx]
      simp [State.afterWire, x]; rfl
    · intro i hi
      rw [List.replicate_succ, extend_cons]
      show _ = (s.card.extend s.cs (w ++ [x]) _)[_]?.map _
      cases i with
      | zero => rw [h4 _ (by omega), hx]; simp [Memory.read_write_same]
      | succ i =>
        rw [show a + (i + 1) = a + 1 + i by omega, h3 i (by omega)]
        simp; congr 2; omega
    · intro b hb
      rw [h4 b (by omega), Memory.read_write_other _ _ (by omega)]

/-- TRANSFERs of a list, possibly empty, from a state after exchanges. -/
theorem transferAll_after {s : State} (bs : List Byte) {w : List Xchg} {tr : List Event} {d : Nat} {m : Memory}
    (hw : w ≠ []) (ha : s.cfg.AtSpec) (hc : s.cfg.transferPollCap = none) :
    ∃ tr' d', transferAll bs { s.afterWire w tr d with mem := m } =
        .ret () { s.afterWire (s.card.extend s.cs w bs) tr' d' with mem := m } ∧
      observed tr' = observed tr ++ transferEvents ((s.card.extend s.cs w bs).drop w.length) := by
  by_cases hb : bs = []
  · subst hb; exact ⟨tr, d, rfl, by simp⟩
  · obtain ⟨tr', d', h, o⟩ := transferAll_returns (s := { s.afterWire w tr d with mem := m }) hb rfl ha hc
    refine ⟨tr', d', ?_, o⟩
    obtain ⟨xs, hx, -⟩ := extend_eq_append s.card s.cs w bs
    have hne : s.card.extend s.cs w bs ≠ [] := by rw [hx]; simp [hw]
    rw [h]
    simp [State.afterWire, List.getLast?_eq_some_getLast hne]

/-- Steps 1 to 4 of INIT (R160 to R164). -/
theorem initHead_quiet {s : State} (hb : s.busy = false) (ha : s.cfg.AtSpec)
    (hc : s.cfg.transferPollCap = none) :
    let w := s.card.extend 0#1 s.wire (List.replicate 10 0xFF#8)
    let r4 := s.card.command 1#1 w 0 0#32
    ∃ tr d, observed tr = observed s.trace ++
          ([.regW 0x54 61#32, .regW 0x50 0#32] ++ transferEvents (w.drop s.wire.length) ++
            [.regW 0x50 1#32] ++ transferEvents (r4.2.drop w.length)) ∧
      initHead s =
        if r4.1 = .byte 0x01#8 then .ret () { s.afterWire r4.2 tr d with cs := 1#1, div := 61#32 }
        else .raised (.resetFailed r4.1) { s.afterWire r4.2 tr d with cs := 1#1, div := 61#32 } := by
  intro w r4
  let s2 : State := { s with cs := 0#1, div := 61#32, trace := s.trace ++ [.regW 0x54 61#32, .regW 0x50 0#32] }
  let s1 : State := { s with div := 61#32, trace := s.trace ++ [.regW 0x54 61#32] }
  have e1 : setClock s.cfg.initHz s = .ret () s1 := by
    rw [Config.initHz_atSpec ha, setClock_atSpec ha (by decide) (by decide) hb]; rfl
  have e2 : setCs s1.cfg.csDeassert s1 = .ret () s2 := by
    rw [Config.csDeassert_atSpec (c := s1.cfg) ha, setCs_atSpec (s := s1) _ ha hb]
    simp [s1, s2, State.emit, csWord]
  obtain ⟨tr2, d2, e3, o3⟩ := transferAll_returns (s := s2) (bs := List.replicate 10 0xFF#8) (by simp) hb ha hc
  let s4 : State := { s2.afterWire w tr2 d2 with cs := 1#1, trace := tr2 ++ [.regW 0x50 1#32] }
  have e4 : setCs (s2.afterWire w tr2 d2).cfg.csAssert (s2.afterWire w tr2 d2) = .ret () s4 := by
    rw [Config.csAssert_atSpec (c := (s2.afterWire w tr2 d2).cfg) ha]
    exact setCs_atSpec (s := s2.afterWire w tr2 d2) 1#1 ha rfl
  obtain ⟨tr4, d4, o5, e5⟩ := expectIdle_quiet (s := s4) rfl ha hc
  have hne : r4.2 ≠ [] := (command_eq_append _ _ _ _ _).choose_spec.2
  refine ⟨tr4, d4, ?_, ?_⟩
  · rw [o5]
    show observed (tr2 ++ [_]) ++ _ = _
    rw [observed_append, o3]
    simp [s2, s4, r4, w]
  · have hs4 : s4.afterWire r4.2 tr4 d4 = { s.afterWire r4.2 tr4 d4 with cs := 1#1, div := 61#32 } := by
      simp [s4, s2, State.afterWire, List.getLast?_eq_some_getLast hne]
    rw [initHead, e1, Run.bind_ret, e2, Run.bind_ret, Config.powerupTransfers_atSpec (c := s2.cfg) ha,
      Config.dummy_atSpec (c := s2.cfg) ha, e3, Run.bind_ret]
    refine (congrArg (fun x => Run.bind x fun _ s => expectIdle s) e4).trans ?_
    rw [← hs4]
    exact e5

/-- Steps 6 and 7 of INIT (R166, R167). -/
theorem initTail_quiet {s : State} (hb : s.busy = false) (ha : s.cfg.AtSpec)
    (hc : s.cfg.transferPollCap = none) :
    let r := s.card.command s.cs s.wire 0x16 s.cfg.blockSize
    ∃ tr d, observed tr = observed s.trace ++ transferEvents (r.2.drop s.wire.length) ∧
      initTail s =
        if r.1 = .byte 0x00#8 then .ret () { s.afterWire r.2 (tr ++ [.regW 0x54 4#32]) d with div := 4#32 }
        else .raised (.blockLenConfigFailed r.1) (s.afterWire r.2 tr d) := by
  intro r
  obtain ⟨tr, d, ho, h⟩ := expectReady_quiet (s := s) hb ha hc
  refine ⟨tr, d, ho, ?_⟩
  rw [initTail, h]
  by_cases h0 : r.1 = .byte 0x00#8
  · rw [if_pos h0, if_pos h0, Run.bind_ret]
    show setClock (s.afterWire r.2 tr d).cfg.runHz (s.afterWire r.2 tr d) = _
    rw [Config.runHz_atSpec (c := (s.afterWire r.2 tr d).cfg) ha,
      setClock_atSpec (s := s.afterWire r.2 tr d) ha (by decide) (by decide) rfl]; rfl
  · rw [if_neg h0, if_neg h0, Run.bind_raised]

end Sys2Proof.Machine
end

