-- ==== Sys2Proof/Laws/Micro.lean ====
section
/-! SUPPORT. Said once: every operation is a chain of the few elementary moves of the block (a TX, CS or DIV write, an
RX or STATUS read, an engine step, a byte stored, a free value drawn). An invariant or a frame is then proved of the
elementary moves, not of the operations. -/

namespace Sys2Proof.Machine

/-- One elementary move; CS and DIV writes only where `cfgw` allows them, stores only at addresses `st` allows. -/
inductive Micro (cfgw : Prop) (st : Nat → Prop) : State → State → Prop where
  | tx (s : State) (v : Word) (h : s.busy = false) : Micro cfgw st s
      { s.emit (.regW s.cfg.offTx v) with txData := lowByte v, busy := true, rxValid := false }
  | rx (s : State) (b : Byte) : Micro cfgw st s (s.emit (.regR s.cfg.offRx (txWord b)))
  | status (s : State) (u : BitVec 31) : Micro cfgw st s (s.emit (.regR s.cfg.offStatus (statusWord s.busy u)))
  | cs (s : State) (v : Word) (hc : cfgw) (h : s.busy = false) : Micro cfgw st s
      { s.emit (.regW s.cfg.offCs v) with cs := csLevel v }
  | div (s : State) (v : Word) (hc : cfgw) (h : s.busy = false) : Micro cfgw st s
      { s.emit (.regW s.cfg.offDiv v) with div := v }
  | engine (s : State) (h : s.busy = true) : Micro cfgw st s (engineStep s)
  | store (s : State) (a : Nat) (b : Byte) (h : st a) : Micro cfgw st s { s with mem := s.mem.write a b }
  | draw (s : State) (n : Nat) : Micro cfgw st s (s.drawn n)

/-- A chain of elementary moves. -/
abbrev Micros (cfgw : Prop) (st : Nat → Prop) : State → State → Prop := Relation.ReflTransGen (Micro cfgw st)

variable {cfgw : Prop} {st : Nat → Prop}

theorem Micro.weaken {cfgw' : Prop} {st' : Nat → Prop} (hc : cfgw → cfgw') (hst : ∀ a, st a → st' a)
    {s t : State} (h : Micro cfgw st s t) : Micro cfgw' st' s t := by
  cases h with
  | tx v h => exact .tx _ v h
  | rx b => exact .rx _ b
  | status u => exact .status _ u
  | cs v h hb => exact .cs _ v (hc h) hb
  | div v h hb => exact .div _ v (hc h) hb
  | engine h => exact .engine _ h
  | store a b h => exact .store _ a b (hst a h)
  | draw n => exact .draw _ n

theorem Micros.weaken {cfgw' : Prop} {st' : Nat → Prop} (hc : cfgw → cfgw') (hst : ∀ a, st a → st' a)
    {s t : State} (h : Micros cfgw st s t) : Micros cfgw' st' s t := by
  induction h with
  | refl => exact .refl
  | tail _ hm ih => exact .tail ih (hm.weaken hc hst)

/-- What every elementary move keeps, a chain keeps. -/
theorem Micros.keeps {P : State → Prop} (hP : ∀ s t, Micro cfgw st s t → P s → P t) {s t : State}
    (h : Micros cfgw st s t) (hs : P s) : P t := by
  induction h with
  | refl => exact hs
  | tail _ hm ih => exact hP _ _ hm ih

/-- A field no elementary move writes, a chain does not write. -/
theorem Micros.same {α : Type} (f : State → α) (hf : ∀ s t, Micro cfgw st s t → f t = f s) {s t : State}
    (h : Micros cfgw st s t) : f t = f s :=
  h.keeps (P := fun u => f u = f s) (fun _ _ hm he => (hf _ _ hm).trans he) rfl

/-- One sequence after another, along chains. -/
theorem micros_bind {α β : Type} {s : State} {x : Run α} {k : α → State → Run β}
    (hx : x.Ends (Micros cfgw st s)) (hk : ∀ a u, (k a u).Ends (Micros cfgw st u)) :
    (x.bind k).Ends (Micros cfgw st s) :=
  hx.bind (fun _ h => h) fun a u hu => (hk a u).mono fun _ h => hu.trans h

theorem wrTx_micros (v : Word) (s : State) : (wrTx v s).Ends (Micros cfgw st s) := by
  cases h : s.busy
  · rw [wrTx_idle _ h]; exact .single (.tx s v h)
  · rw [wrTx_busy _ h]; trivial

theorem rdRx_micros (s : State) : (rdRx s).Ends (Micros cfgw st s) := by
  cases h : s.rxValid
  · rw [rdRx_invalid h]; exact .trans (.single (.draw s 1)) (.single (.rx _ _))
  · rw [rdRx_valid h]; exact .single (.rx s _)

theorem rdStatus_micros (s : State) : (rdStatus s).Ends (Micros cfgw st s) :=
  .trans (.single (.draw s 1)) (.single (.status _ _))

theorem wrCs_micros (hc : cfgw) (v : Word) (s : State) : (wrCs v s).Ends (Micros cfgw st s) := by
  unfold wrCs
  split
  · trivial
  · cases h : s.busy
    · exact .single (.cs s v hc h)
    · trivial

theorem wrDiv_micros (hc : cfgw) (v : Word) (s : State) : (wrDiv v s).Ends (Micros cfgw st s) := by
  unfold wrDiv
  cases h : s.busy
  · exact .single (.div s v hc h)
  · trivial

theorem pollStatus_micros (n : Nat) (s : State) : Micros cfgw st s (pollStatus n s) := by
  induction n generalizing s with
  | zero => simpa [pollStatus, statusReads] using Relation.ReflTransGen.refl
  | succ n ih =>
    rw [(pollStatus_succ n s).2]
    exact .trans (.trans (.single (.draw s 1)) (.single (.status _ _))) (ih _)

theorem finishTransfer_micros {s : State} (h : s.busy = true) : (finishTransfer s).Ends (Micros cfgw st s) := by
  unfold finishTransfer
  have he : Micros cfgw st s (engineStep s) := .single (.engine s h)
  refine Run.Ends.mono (P := Micros cfgw st (engineStep s)) ?_ fun _ ht => he.trans ht
  exact micros_bind (rdStatus_micros _) fun _ u => micros_bind (rdRx_micros u) fun _ _ => .refl

theorem transfer_micros (b : Byte) (s : State) : (transfer b s).Ends (Micros cfgw st s) := by
  unfold transfer
  cases h : s.busy
  · rw [wrTx_idle _ h, Run.bind_ret]
    have h0 : Micros cfgw st s _ := .trans (.single (.tx s (txWord b) h)) (.single (.draw _ 1))
    have hp : ∀ n, Micros cfgw st s (pollStatus n _) := fun n => h0.trans (pollStatus_micros n _)
    have hf : ∀ n, (finishTransfer (pollStatus n _)).Ends (Micros cfgw st s) := fun n =>
      (finishTransfer_micros (s := pollStatus n _) rfl).mono fun _ ht => (hp n).trans ht
    dsimp only
    split
    · exact hf _
    · split
      · exact hp _
      · exact hf _
  · rw [wrTx_busy _ h]; trivial

theorem transferAll_micros (bs : List Byte) (s : State) : (transferAll bs s).Ends (Micros cfgw st s) := by
  induction bs generalizing s with
  | nil => exact .refl
  | cons b bs ih => exact micros_bind (transfer_micros b s) fun _ u => ih u

theorem transferDummy_micros (s : State) : (transferDummy s).Ends (Micros cfgw st s) := transfer_micros _ s

theorem sendCommand_micros (idx : Nat) (p : Word) (s : State) : (sendCommand idx p s).Ends (Micros cfgw st s) := by
  unfold sendCommand
  split
  · exact transferAll_micros _ s
  · trivial

theorem pollResult_micros (n : Nat) (s : State) : (pollResult n s).Ends (Micros cfgw st s) := by
  induction n generalizing s with
  | zero => exact .refl
  | succ n ih =>
    refine micros_bind (transfer_micros _ s) fun r u => ?_
    split
    · exact ih u
    · exact .refl

theorem getResult_micros (s : State) : (getResult s).Ends (Micros cfgw st s) := pollResult_micros _ s

theorem expectIdle_micros (s : State) : (expectIdle s).Ends (Micros cfgw st s) :=
  micros_bind (sendCommand_micros _ _ s) fun _ u => micros_bind (getResult_micros u) fun r v => by
    split <;> exact .refl

theorem expectReady_micros (s : State) : (expectReady s).Ends (Micros cfgw st s) :=
  micros_bind (sendCommand_micros _ _ s) fun _ u => micros_bind (getResult_micros u) fun r v => by
    split <;> exact .refl

theorem pollOnce_micros (m : Nat) (s : State) : (pollOnce m s).Ends (Micros cfgw st s) := by
  unfold pollOnce
  split
  · exact .refl
  · refine micros_bind (sendCommand_micros _ _ s) fun _ u => micros_bind (getResult_micros u) fun r v => ?_
    split
    · exact .refl
    · split <;> exact .refl

theorem setCs_micros (hc : cfgw) (level : Bit) (s : State) : (setCs level s).Ends (Micros cfgw st s) :=
  wrCs_micros hc _ s

theorem setClock_micros (hc : cfgw) (hz : Nat) (s : State) : (setClock hz s).Ends (Micros cfgw st s) := by
  unfold setClock
  split
  · exact wrDiv_micros hc _ s
  · trivial

theorem initHead_micros (hc : cfgw) (s : State) : (initHead s).Ends (Micros cfgw st s) :=
  micros_bind (setClock_micros hc _ s) fun _ u => micros_bind (setCs_micros hc _ u) fun _ v =>
    micros_bind (transferAll_micros _ v) fun _ w => micros_bind (setCs_micros hc _ w) fun _ x =>
      expectIdle_micros x

theorem initTail_micros (hc : cfgw) (s : State) : (initTail s).Ends (Micros cfgw st s) :=
  micros_bind (expectReady_micros s) fun _ u => setClock_micros hc _ u

theorem readBytes_micros (n a : Nat) (s : State) (h : ∀ b, a ≤ b → b < a + n → st b) :
    (readBytes n a s).Ends (Micros cfgw st s) := by
  induction n generalizing a s with
  | zero => exact .refl
  | succ n ih =>
    refine micros_bind (transfer_micros _ s) fun b u => ?_
    refine (ih (a + 1) _ fun c h1 h2 => h c (by omega) (by omega)).mono fun _ ht => ?_
    exact .head (.store u a b (h a (by omega) (by omega))) ht

theorem readBlock_micros (addr : Word) (dest : Nat) (s : State)
    (h : ∀ b, dest ≤ b → b < dest + s.cfg.blockSize.toNat → st b) :
    (readBlock addr dest s).Ends (Micros cfgw st s) := by
  have hcfg : ∀ {u}, Micros cfgw st s u → u.cfg = s.cfg :=
    fun hu => hu.same (·.cfg) fun _ _ hm => by cases hm <;> rfl
  unfold readBlock
  split
  · refine (sendCommand_micros _ _ s).bind (fun _ h => h) fun _ u hu => ?_
    refine ((getResult_micros u).mono fun _ h => hu.trans h).bind (fun _ h => h) fun _ v hv => ?_
    have hb := readBytes_micros (cfgw := cfgw) (st := st) v.cfg.blockSize.toNat dest v (by rw [hcfg hv]; exact h)
    refine (hb.mono fun _ h => hv.trans h).bind (fun _ h => h) fun _ w hw => ?_
    exact (transferAll_micros _ w).mono fun _ h => hw.trans h
  · trivial

/-! ### No exchange is in flight where a sequence returns -/

/-- Where the sequence returns a value, no exchange is in flight. -/
def ReturnsIdle {α : Type} (x : Run α) : Prop := ∀ a t, x = .ret a t → t.busy = false

theorem returnsIdle_bind {α β : Type} {x : Run α} {k : α → State → Run β}
    (hx : ReturnsIdle x) (hk : ∀ a u, u.busy = false → ReturnsIdle (k a u)) : ReturnsIdle (x.bind k) := by
  cases x with
  | ret a u => exact hk a u (hx a u rfl)
  | raised f u => intro a t h; cases h
  | refused q => intro a t h; cases h

theorem transfer_returnsIdle (b : Byte) (s : State) : ReturnsIdle (transfer b s) := by
  unfold transfer
  cases h : s.busy
  · rw [wrTx_idle _ h, Run.bind_ret]
    dsimp only
    intro r t ht
    split at ht
    · rw [finishTransfer_eq] at ht; cases ht; rfl
    · split at ht
      · cases ht
      · rw [finishTransfer_eq] at ht; cases ht; rfl
  · rw [wrTx_busy _ h]; intro a t h; cases h

theorem transferDummy_returnsIdle (s : State) : ReturnsIdle (transferDummy s) := transfer_returnsIdle _ s

theorem transferAll_returnsIdle (bs : List Byte) {s : State} (h : s.busy = false) :
    ReturnsIdle (transferAll bs s) := by
  induction bs generalizing s with
  | nil => rintro _ _ ⟨⟩; exact h
  | cons b bs ih => exact returnsIdle_bind (transfer_returnsIdle b s) fun _ _ hu => ih hu

theorem sendCommand_returnsIdle (idx : Nat) (p : Word) {s : State} (h : s.busy = false) :
    ReturnsIdle (sendCommand idx p s) := by
  unfold sendCommand
  split
  · exact transferAll_returnsIdle _ h
  · intro a t h; cases h

theorem pollResult_returnsIdle (n : Nat) {s : State} (h : s.busy = false) : ReturnsIdle (pollResult n s) := by
  induction n generalizing s with
  | zero => rintro _ _ ⟨⟩; exact h
  | succ n ih =>
    refine returnsIdle_bind (transfer_returnsIdle _ s) fun r u hu => ?_
    split
    · exact ih hu
    · rintro _ _ ⟨⟩; exact hu

theorem pollOnce_returnsIdle (m : Nat) {s : State} (h : s.busy = false) : ReturnsIdle (pollOnce m s) := by
  unfold pollOnce
  split
  · intro a t h; cases h
  · refine returnsIdle_bind (sendCommand_returnsIdle _ _ h) fun _ u hu =>
      returnsIdle_bind (pollResult_returnsIdle _ hu) fun r v hv => ?_
    split
    · rintro _ _ ⟨⟩; exact hv
    · split
      · rintro _ _ ⟨⟩; exact hv
      · intro a t h; cases h

/-- A sequence that starts with a TX write starts with no exchange in flight, or is refused. -/
theorem sendCommand_busy {idx : Nat} {p : Word} {s : State} (h : s.busy = true) :
    ∃ q, sendCommand idx p s = .refused q := by
  unfold sendCommand
  split
  · exact ⟨.txWriteWhileBusy, by simp [frameBytes, transferAll, transfer, wrTx_busy _ h]⟩
  · exact ⟨_, rfl⟩

end Sys2Proof.Machine
end

