-- ==== Sys2Proof/Laws/PerInstr.lean ====
section
/-! SUPPORT. Per operation: its encoded form has the format that the opcode table gives its row (30_encoding.md
R86). -/

namespace Sys2Proof.Laws.EncodeFormat

/-- Under every configuration the encoded form has the row's format. -/
def Statement (i : Instr) : Prop := ∀ c : Config, (encode c i).format = i.format

theorem wrTx (v : Word) : Statement (.wrTx v) := fun _ => rfl
theorem rdRx : Statement .rdRx := fun _ => rfl
theorem rdStatus : Statement .rdStatus := fun _ => rfl
theorem wrCs (v : Word) : Statement (.wrCs v) := fun _ => rfl
theorem wrDiv (v : Word) : Statement (.wrDiv v) := fun _ => rfl
theorem setCs (level : Bit) : Statement (.setCs level) := fun _ => rfl
theorem setClock (hz : Nat) : Statement (.setClock hz) := fun _ => rfl
theorem transfer (b : Byte) : Statement (.transfer b) := fun _ => rfl
theorem sendCommand (idx : Nat) (param : Word) : Statement (.sendCommand idx param) := fun _ => rfl
theorem getResult : Statement .getResult := fun _ => rfl
theorem expectIdle : Statement .expectIdle := fun _ => rfl
theorem initPoll : Statement .initPoll := fun _ => rfl
theorem expectReady : Statement .expectReady := fun _ => rfl
theorem init : Statement .init := fun _ => rfl
theorem readBlock (addr : Word) (dest : Nat) : Statement (.readBlock addr dest) := fun _ => rfl
theorem cmdReset : Statement .cmdReset := fun _ => rfl
theorem cmdInit : Statement .cmdInit := fun _ => rfl
theorem cmdSetBlockLen : Statement .cmdSetBlockLen := fun _ => rfl
theorem cmdReadBlock (addr : Word) : Statement (.cmdReadBlock addr) := fun _ => rfl
theorem dummy : Statement .dummy := fun _ => rfl
theorem respBusy : Statement .respBusy := fun _ => rfl
theorem respIdle : Statement .respIdle := fun _ => rfl
theorem respReady : Statement .respReady := fun _ => rfl

end Sys2Proof.Laws.EncodeFormat
end

