-- ==== Sys2Proof/Laws/Step.lean ====
section
/-! SUPPORT. Said once: what `exec` and `step` can do. An operation that has a next state was invoked with none in
progress, is a chain of elementary moves, and ends with a reply or at a legal position of the sequencer; a step is one
such chain, or the engine's move, or nothing. -/

namespace Sys2Proof.Machine

/-- How an operation leaves the state its chain reached: with a reply, or at the loop head of INIT_POLL. -/
def Leaves (u t : State) : Prop :=
  (∃ r, t = u.answer r) ∨ ∃ fs, seqLegal fs = true ∧ u.busy = false ∧ t = { u with seq := fs }

variable {s t : State}

theorem invoke_leaves {α : Type} {reply : α → Reply} {body : State → Run α} {P : State → Prop}
    (hb : (body s).Ends P) (h : invoke reply body s = .next t) :
    s.seq = [] ∧ ∃ u, P u ∧ Leaves u t := by
  obtain ⟨hs, ⟨a, u, he, rfl⟩ | ⟨f, u, he, rfl⟩⟩ := invoke_eq_next.mp h <;> rw [he] at hb
  · exact ⟨hs, u, hb, .inl ⟨_, rfl⟩⟩
  · exact ⟨hs, u, hb, .inl ⟨_, rfl⟩⟩

theorem endPollAlone_leaves {x : Run PollEnd} {P : State → Prop} (hb : x.Ends P) (hi : ReturnsIdle x)
    (h : endPollAlone x = .next t) : ∃ u, P u ∧ Leaves u t := by
  match x, h with
  | .ret .ready u, h => cases h; exact ⟨u, hb, .inl ⟨_, rfl⟩⟩
  | .ret (.again m) u, h => cases h; exact ⟨u, hb, .inr ⟨[.initPoll m], rfl, hi _ _ rfl, rfl⟩⟩
  | .raised f u, h => cases h; exact ⟨u, hb, .inl ⟨_, rfl⟩⟩

theorem endInit_leaves {x : Run Unit} {P : State → Prop} (hb : x.Ends P) (h : endInit x = .next t) :
    ∃ u, P u ∧ Leaves u t := by
  match x, h with
  | .ret () u, h => cases h; exact ⟨u, hb, .inl ⟨_, rfl⟩⟩
  | .raised f u, h => cases h; exact ⟨u, hb, .inl ⟨_, rfl⟩⟩

theorem endPollInInit_leaves {x : Run PollEnd} {s₀ : State} {st : Nat → Prop}
    (hb : x.Ends (Micros True st s₀)) (hi : ReturnsIdle x) (h : endPollInInit x = .next t) :
    ∃ u, Micros True st s₀ u ∧ Leaves u t := by
  match x, h with
  | .ret .ready u, h => exact endInit_leaves ((initTail_micros trivial u).mono fun _ hv => hb.trans hv) h
  | .ret (.again m) u, h => cases h; exact ⟨u, hb, .inr ⟨[.initPoll m, .init], rfl, hi _ _ rfl, rfl⟩⟩
  | .raised f u, h => cases h; exact ⟨u, hb, .inl ⟨_, rfl⟩⟩

/-- A pass of INIT_POLL's loop that returns was made with no exchange in flight. -/
theorem pollOnce_idle (m : Nat) (s : State) : ReturnsIdle (pollOnce m s) := by
  cases h : s.busy
  · exact pollOnce_returnsIdle m h
  · unfold pollOnce
    split
    · intro a t h; cases h
    · obtain ⟨q, hq⟩ := sendCommand_busy (idx := s.cfg.cmdInit) (p := 0#32) h
      rw [sendInit, hq]; intro a t h; cases h

/-- What an operation can do: it was invoked with none in progress, moved by elementary moves it may make, and left
the state with a reply or at the loop head of INIT_POLL. -/
theorem exec_inversion (i : Instr) (h : exec i s = .next t) :
    s.seq = [] ∧ ∃ u, Micros (writesConfig i = true) (storesTo s.cfg i) s u ∧ Leaves u t := by
  cases i with
  | wrTx v => exact invoke_leaves (wrTx_micros v s) h
  | rdRx => exact invoke_leaves (rdRx_micros s) h
  | rdStatus => exact invoke_leaves (rdStatus_micros s) h
  | wrCs v => exact invoke_leaves (wrCs_micros rfl v s) h
  | wrDiv v => exact invoke_leaves (wrDiv_micros rfl v s) h
  | setCs level => exact invoke_leaves (setCs_micros rfl level s) h
  | setClock hz => exact invoke_leaves (setClock_micros rfl hz s) h
  | transfer b => exact invoke_leaves (transfer_micros b s) h
  | sendCommand idx p => exact invoke_leaves (sendCommand_micros idx p s) h
  | getResult => exact invoke_leaves (getResult_micros s) h
  | expectIdle => exact invoke_leaves (expectIdle_micros s) h
  | initPoll =>
    obtain ⟨hs, h⟩ := whenIdle_eq_next.mp h
    exact ⟨hs, endPollAlone_leaves (pollOnce_micros 0 s) (pollOnce_idle 0 s) h⟩
  | expectReady => exact invoke_leaves (expectReady_micros s) h
  | init =>
    obtain ⟨hs, h⟩ := whenIdle_eq_next.mp h
    refine ⟨hs, ?_⟩
    have hw : writesConfig .init = true := rfl
    simp only [hw]
    refine endPollInInit_leaves (micros_bind (initHead_micros trivial s) fun _ u => pollOnce_micros 0 u) ?_ h
    cases hx : initHead s with
    | ret a u => exact pollOnce_idle 0 u
    | raised f u => intro a t h; cases h
    | refused q => intro a t h; cases h
  | readBlock addr dest =>
    exact invoke_leaves (readBlock_micros addr dest s fun b h1 h2 => ⟨h1, h2⟩) h
  | cmdReset => exact invoke_leaves (sendCommand_micros _ _ s) h
  | cmdInit => exact invoke_leaves (sendCommand_micros _ _ s) h
  | cmdSetBlockLen => exact invoke_leaves (sendCommand_micros _ _ s) h
  | cmdReadBlock addr => exact invoke_leaves (sendCommand_micros _ _ s) h
  | dummy => exact invoke_leaves (transfer_micros _ s) h
  | respBusy => exact invoke_leaves (body := classifyReceived _) (P := Micros _ _ s) .refl h
  | respIdle => exact invoke_leaves (body := classifyReceived _) (P := Micros _ _ s) .refl h
  | respReady => exact invoke_leaves (body := classifyReceived _) (P := Micros _ _ s) .refl h

/-- What a pass of an operation in progress can do. -/
theorem resume_inversion (h : resume s = .next t) :
    ∃ u, Micros True (fun _ => False) { s with seq := [] } u ∧ Leaves u t := by
  unfold resume at h
  split at h
  · exact endPollAlone_leaves (pollOnce_micros _ _) (pollOnce_idle _ _) h
  · exact endPollInInit_leaves (pollOnce_micros _ _) (pollOnce_idle _ _) h
  · cases h

/-- What a step can do: the engine's move; a pass of the operation in progress; the host's next operation, run from
the state without it; or, at the end of the run, nothing. The turn is settled last. -/
theorem step_inversion (h : step s = .next t) :
    ∃ v, t = reschedule v ∧
      ((s.busy = true ∧ v = engineStep s) ∨
        (s.seq ≠ [] ∧ ∃ u, Micros True (fun _ => False) { s with seq := [] } u ∧ Leaves u v) ∨
        (s.seq = [] ∧ ∃ r rest u, s.host = r :: rest ∧
          Micros True (fun _ => True) { s with host := rest } u ∧ Leaves u v) ∨
        (s.seq = [] ∧ s.host = [] ∧ v = s)) := by
  obtain ⟨v, hv, rfl⟩ := onNext_eq_next.mp h
  refine ⟨v, rfl, ?_⟩
  unfold move at hv
  split at hv
  · next he =>
    cases hv
    exact .inl ⟨by simp [engineMoves] at he; exact he.1, rfl⟩
  · unfold hostMove at hv
    split at hv
    · next hs => exact .inr (.inl ⟨by simp [hs], resume_inversion hv⟩)
    · next r rest hs hh =>
      refine .inr (.inr (.inl ⟨hs, r, rest, ?_⟩))
      unfold runRequest at hv
      split at hv
      · next i hd =>
        obtain ⟨-, u, hu, hl⟩ := exec_inversion i hv
        exact ⟨u, hh, hu.weaken (fun _ => trivial) (fun _ _ => trivial), hl⟩
      · next b hd =>
        obtain ⟨-, u, hu, hl⟩ := invoke_leaves (body := classifyReceived _)
          (P := Micros True (fun _ => True) _) .refl hv
        exact ⟨u, hh, hu, hl⟩
      · cases hv
    · next hs hh =>
      cases hv
      exact .inr (.inr (.inr ⟨hs, hh, rfl⟩))

/-- A run goes on from where its first step leads. -/
theorem run_succ (M : Host.Core) (k : Nat) {s s' : M.State} (h : M.step s = .next s') :
    M.run (k + 1) s = M.run k s' := by
  rw [Host.Core.run, h]

end Sys2Proof.Machine
end

