-- ==== Sys2Proof/Tests/Slice0.lean ====
section
/-! SUPPORT. Tests. Words are written out bit by bit from 30_encoding.md; expected results are those of
95_test_vectors.md (V1 to V62, P3, P4) and of the rules named. The last part shows, for every statement with
hypotheses, a state and operands that meet them. -/

namespace Sys2Proof.Tests

open Sys2Proof.Machine

/-! ### Helpers -/

/-- A state after reset with a scripted card; after the list the card answers 0xFF (95_test_vectors.md). -/
def scripted (bytes : List Byte) : State := { State.reset with card := .script bytes 0xFF#8 }

/-- A state after reset with a card that always answers `b`. -/
def always (b : Byte) : State := { State.reset with card := .script [] b }

/-- A state after reset with an exchange of `b` in flight. -/
def inFlight (b : Byte) : State := { State.reset with txData := b, busy := true }

/-- Byte `b`, `n` times. -/
def rep (n : Nat) (b : Byte) : List Byte := List.replicate n b

/-- What an outcome's next state shows of a field. -/
def shows {α : Type} (f : State → α) : Host.Outcome State Fault Refusal → Option α
  | .next s => some (f s)
  | .fault _ | .refused _ => none

theorem next_of_shows {α : Type} {f : State → α} {o : Host.Outcome State Fault Refusal} {a : α}
    (h : shows f o = some a) : ∃ t, o = .next t ∧ f t = a := by
  cases o with
  | next t => exact ⟨t, rfl, Option.some.inj h⟩
  | fault r => cases h
  | refused q => cases h

/-- Why an outcome has no meaning. -/
def refusal : Host.Outcome State Fault Refusal → Option Refusal
  | .next _ | .fault _ => none
  | .refused q => some q

/-- The bytes sent in a run so far. -/
def sent (s : State) : List Byte := s.wire.map (·.mosi)

/-! ### Well-formedness -/

theorem test_wf_cs_two : (Instr.wrCs 2#32).wf Config.default = false := by decide
theorem test_wf_clock_zero : (Instr.setClock 0).wf Config.default = false := by decide
theorem test_wf_clock_high : (Instr.setClock 25000001).wf Config.default = false := by decide
theorem test_wf_clock_limits :
    (Instr.setClock 1).wf Config.default = true ∧ (Instr.setClock 25000000).wf Config.default = true := by decide
theorem test_wf_index_64 : (Instr.sendCommand 64 0#32).wf Config.default = false := by decide
theorem test_wf_index_63 : (Instr.sendCommand 63 0xFFFFFFFF#32).wf Config.default = true := by decide
theorem test_wf_config : Config.default.wf = true := by decide
theorem test_wf_window_unaligned : { Config.default with regBase := 2 }.wf = false := by decide
theorem test_wf_width : { Config.default with regWidth := 16 }.wf = false := by decide
theorem test_wf_offset_unaligned : { Config.default with offDiv := 0x55 }.wf = false := by decide
theorem test_wf_offsets_equal : { Config.default with offDiv := 0x50 }.wf = false := by decide
theorem test_wf_marker : { Config.default with frameMarker := 0x41#8 }.wf = false := by decide
theorem test_wf_index_range : { Config.default with cmdReadBlock := 64 }.wf = false := by decide
theorem test_wf_indices_equal : { Config.default with cmdInit := 0 }.wf = false := by decide
theorem test_wf_init_clock : { Config.default with initHz := 0 }.wf = false := by decide
theorem test_wf_run_clock : { Config.default with runHz := 25000001 }.wf = false := by decide
theorem test_wf_system_clock : { Config.default with systemClockHz := 2 ^ 34 }.wf = false := by decide

/-! ### Decoding: words from the spec's encodings -/

/-- The window at an address other than 0. -/
def cfgAt : Config := { Config.default with regBase := 0x1000 }

/-- R52, R70: 0x44 written. -/
theorem test_decode_wr_tx :
    decode cfgAt (.bus .write 0x1044 4 0xFFFFFF40#32) = .instr (.wrTx 0xFFFFFF40#32) := by decide
theorem test_decode_rd_rx : decode cfgAt (.bus .read 0x1048 4 0#32) = .instr .rdRx := by decide
theorem test_decode_rd_status : decode cfgAt (.bus .read 0x104c 4 0#32) = .instr .rdStatus := by decide
theorem test_decode_wr_cs : decode cfgAt (.bus .write 0x1050 4 1#32) = .instr (.wrCs 1#32) := by decide
theorem test_decode_wr_div : decode cfgAt (.bus .write 0x1054 4 61#32) = .instr (.wrDiv 61#32) := by decide

/-- V25: a read at 0x44, 0x50 or 0x54, a write at 0x48 or 0x4c. -/
theorem test_decode_wrong_direction :
    [decode cfgAt (.bus .read 0x1044 4 0#32), decode cfgAt (.bus .read 0x1050 4 0#32),
      decode cfgAt (.bus .read 0x1054 4 0#32), decode cfgAt (.bus .write 0x1048 4 0#32),
      decode cfgAt (.bus .write 0x104c 4 0#32)] = List.replicate 5 (.reject .wrongDirection) := by decide

/-- V26: any access at 0x40 or 0x58; and below the window. -/
theorem test_decode_other_offset :
    [decode cfgAt (.bus .read 0x1040 4 0#32), decode cfgAt (.bus .write 0x1040 4 0#32),
      decode cfgAt (.bus .read 0x1058 4 0#32), decode cfgAt (.bus .write 0x1058 4 0#32),
      decode cfgAt (.bus .write 0x44 4 0#32)] = List.replicate 5 (.reject .offsetOutOfScope) := by decide

/-- V27: a byte write at 0x44; a wide read, and a misaligned access (R51). -/
theorem test_decode_narrow :
    [decode cfgAt (.bus .write 0x1044 1 0#32), decode cfgAt (.bus .read 0x1048 8 0#32),
      decode cfgAt (.bus .write 0x1045 4 0#32)] =
      List.replicate 3 (.reject .narrowOrMisalignedRegisterAccess) := by decide

/-- R71, R78: 01 000000, the parameter 0, 10010101. -/
theorem test_decode_cmd_reset :
    decode cfgAt (.frame [0b01000000#8, 0#8, 0#8, 0#8, 0#8, 0b10010101#8]) = .instr .cmdReset := by decide
theorem test_decode_cmd_init :
    decode cfgAt (.frame [0b01000001#8, 0#8, 0#8, 0#8, 0#8, 0b10010101#8]) = .instr .cmdInit := by decide
/-- R130: BLOCK_SIZE 512 is 00 00 02 00. -/
theorem test_decode_cmd_set_block_len :
    decode cfgAt (.frame [0b01010110#8, 0#8, 0#8, 0b00000010#8, 0#8, 0b10010101#8]) = .instr .cmdSetBlockLen := by
  decide
theorem test_decode_cmd_read_block :
    decode cfgAt (.frame [0b01010111#8, 0xDE#8, 0xAD#8, 0xBE#8, 0xEF#8, 0b10010101#8]) =
      .instr (.cmdReadBlock 0xDEADBEEF#32) := by decide
/-- R78: an index that no command of the driver has. -/
theorem test_decode_other_index :
    decode cfgAt (.frame [0b01111111#8, 0xFF#8, 0xFF#8, 0xFF#8, 0xFF#8, 0b10010101#8]) =
      .instr (.sendCommand 63 0xFFFFFFFF#32) := by decide
/-- R71: another marker, another checksum, five bytes. -/
theorem test_decode_no_frame :
    [decode cfgAt (.frame [0b11000000#8, 0#8, 0#8, 0#8, 0#8, 0x95#8]),
      decode cfgAt (.frame [0b00000000#8, 0#8, 0#8, 0#8, 0#8, 0x95#8]),
      decode cfgAt (.frame [0b01000000#8, 0#8, 0#8, 0#8, 0#8, 0x94#8]),
      decode cfgAt (.frame [0b01000000#8, 0#8, 0#8, 0#8, 0x95#8])] = List.replicate 4 (.reject .notAFrame) := by
  decide

theorem test_decode_dummy : decode cfgAt (.byteOut 0b11111111#8) = .instr .dummy := by decide
theorem test_decode_byte_out : decode cfgAt (.byteOut 0x40#8) = .instr (.transfer 0x40#8) := by decide
theorem test_decode_resp_busy : decode cfgAt (.byteIn 0b11111111#8) = .instr .respBusy := by decide
theorem test_decode_resp_idle : decode cfgAt (.byteIn 0b00000001#8) = .instr .respIdle := by decide
theorem test_decode_resp_ready : decode cfgAt (.byteIn 0b00000000#8) = .instr .respReady := by decide
/-- R82: 0x02 to 0xFE are legal and have no row. -/
theorem test_decode_resp_other :
    [decode cfgAt (.byteIn 0x02#8), decode cfgAt (.byteIn 0xFE#8)] =
      [.otherResponse 0x02#8, .otherResponse 0xFE#8] := by decide

/-- The SEQ operations, which have no bits (R86), are invoked by name. -/
theorem test_decode_seq :
    [Instr.setCs 1#1, .setClock 400000, .transfer 0xFF#8, .sendCommand 63 5#32, .getResult, .expectIdle,
        .initPoll, .expectReady, .init, .readBlock 0x200#32 0x8000].map (fun i => decode cfgAt (.invoke i)) =
      [.instr (.setCs 1#1), .instr (.setClock 400000), .instr (.transfer 0xFF#8), .instr (.sendCommand 63 5#32),
        .instr .getResult, .instr .expectIdle, .instr .initPoll, .instr .expectReady, .instr .init,
        .instr (.readBlock 0x200#32 0x8000)] := by decide

/-- The table's own bits: a byte row with 0xFF is a byte sent, the others bytes received (log entry 16). -/
theorem test_table_words :
    [decodeTableWord 32 0x50, decodeTableWord 32 0x54, decodeTableWord 48 0x410000000095, decodeTableWord 8 0x00,
        decodeTableWord 32 0x40, decodeTableWord 0 0] =
      [some (.wrCs 0#32), some (.wrDiv 0#32), some .cmdInit, some .respReady, none, none] := by decide

/-! ### Register accesses -/

/-- V14. -/
theorem test_wr_tx : shows (fun s => (s.txData, s.busy, s.rxValid)) (exec (.wrTx 0xA5#32) State.reset) =
    some (0xA5#8, true, false) := by decide
/-- V15. -/
theorem test_wr_tx_upper : shows (fun s => (s.txData, s.busy)) (exec (.wrTx 0xFFFFFF40#32) State.reset) =
    some (0x40#8, true) := by decide
/-- V16. -/
theorem test_wr_tx_busy : refusal (exec (.wrTx 1#32) (inFlight 0#8)) = some .txWriteWhileBusy := by decide
/-- V21, V22. -/
theorem test_wr_cs : shows (·.cs) (exec (.wrCs 1#32) State.reset) = some 1#1 ∧
    shows (·.cs) (exec (.wrCs 0#32) { State.reset with cs := 1#1 }) = some 0#1 := by decide
/-- V23. -/
theorem test_wr_cs_two : refusal (exec (.wrCs 2#32) State.reset) = some .reservedCsValue := by decide
/-- V24. -/
theorem test_wr_div : shows (·.div) (exec (.wrDiv 61#32) State.reset) = some 61#32 := by decide
/-- V28. -/
theorem test_wr_cs_busy : refusal (exec (.wrCs 1#32) (inFlight 0#8)) = some .configWriteWhileBusy := by decide
/-- V19: after an exchange that received 0x34 RX reads 0x00000034. -/
theorem test_rd_rx : shows (·.outcomes) (exec .rdRx { State.reset with rxLatch := 0x34#8, rxValid := true }) =
    some [.word 0x34#32] := by decide
/-- V17, V18, through bit 0 of the word returned. -/
theorem test_rd_status :
    (∃ v, shows (·.outcomes) (exec .rdStatus State.reset) = some [.word v] ∧ v.getLsbD 0 = true) ∧
      ∃ v, shows (·.outcomes) (exec .rdStatus (inFlight 0x12#8)) = some [.word v] ∧ v.getLsbD 0 = false :=
  ⟨⟨_, rfl, statusWord_bit ..⟩, ⟨_, rfl, statusWord_bit ..⟩⟩
/-- V1 to V11. -/
theorem test_divisors :
    [400000, 5000000, 25000000, 12500000, 3000000, 7000000, 1, 1000000, 100000, 20000000, 24999999].map
        (divisor Config.default) =
      [61#32, 4#32, 0#32, 1#32, 7#32, 2#32, 24999999#32, 24#32, 249#32, 0#32, 0#32] := by decide
/-- V12, V13. -/
theorem test_set_clock_range : refusal (exec (.setClock 25000001) State.reset) = some .clockTargetOutOfRange ∧
    refusal (exec (.setClock 0) State.reset) = some .clockTargetOutOfRange := by decide
/-- R97's example. -/
theorem test_set_cs : shows (·.trace) (exec (.setCs 0#1) State.reset) = some [.regW 0x50 0#32] := by decide

/-! ### Exchanges -/

/-- V30: chip select asserted. -/
theorem test_transfer : shows (fun s => (s.wire, s.outcomes)) (exec (.transfer 0xFF#8)
    { scripted [0x01#8] with cs := 1#1 }) = some ([⟨1#1, 0xFF#8, 0x01#8⟩], [.byte 0x01#8]) := by decide
/-- V31: chip select deasserted plays no part. -/
theorem test_transfer_deasserted : shows (fun s => (s.txData, s.rxLatch, s.busy, s.rxValid))
    (exec (.transfer 0x00#8) (scripted [0xA7#8])) = some (0x00#8, 0xA7#8, false, true) := by decide
/-- V38: the most significant byte first. -/
theorem test_send_command : shows sent (exec (.sendCommand 0x17 0xDEADBEEF#32) (scripted [])) =
    some [0x57#8, 0xDE#8, 0xAD#8, 0xBE#8, 0xEF#8, 0x95#8] := by decide
/-- V39: the largest index. -/
theorem test_send_command_63 : shows sent (exec (.sendCommand 63 0xFFFFFFFF#32) (scripted [])) =
    some [0x7F#8, 0xFF#8, 0xFF#8, 0xFF#8, 0xFF#8, 0x95#8] := by decide
/-- V34. -/
theorem test_cmd_reset : shows sent (exec .cmdReset (scripted [])) =
    some [0x40#8, 0x00#8, 0x00#8, 0x00#8, 0x00#8, 0x95#8] := by decide
/-- V35. -/
theorem test_cmd_init : shows sent (exec .cmdInit (scripted [])) =
    some [0x41#8, 0x00#8, 0x00#8, 0x00#8, 0x00#8, 0x95#8] := by decide
/-- V36. -/
theorem test_cmd_set_block_len : shows sent (exec .cmdSetBlockLen (scripted [])) =
    some [0x56#8, 0x00#8, 0x00#8, 0x02#8, 0x00#8, 0x95#8] := by decide
/-- V37. -/
theorem test_cmd_read_block : shows sent (exec (.cmdReadBlock 0x00012400#32) (scripted [])) =
    some [0x57#8, 0x00#8, 0x01#8, 0x24#8, 0x00#8, 0x95#8] := by decide
/-- V43. -/
theorem test_get_result : shows (fun s => (s.outcomes, s.wire.length)) (exec .getResult
    (scripted [0xFF#8, 0xFF#8, 0x01#8])) = some ([.result (.byte 0x01#8)], 3) := by decide
/-- V46: only 0xFF is busy. -/
theorem test_get_result_fe : shows (fun s => (s.outcomes, s.wire.length)) (exec .getResult (scripted [0xFE#8])) =
    some ([.result (.byte 0xFE#8)], 1) := by decide

/-! ### Validators and sequences -/

/-- V52: an 0x01 inside the frame is not heard. -/
theorem test_expect_idle : shows (fun s => (s.outcomes, s.wire.length)) (exec .expectIdle
    (scripted (rep 6 0x01#8 ++ [0xFF#8, 0x01#8]))) = some ([.ok], 8) := by decide
/-- V49. -/
theorem test_expect_idle_ready : shows (·.outcomes) (exec .expectIdle (scripted (rep 6 0xFF#8 ++ [0x00#8]))) =
    some [.failed (.resetFailed (.byte 0x00#8))] := by decide
/-- V53. -/
theorem test_init_poll : shows (fun s => (s.outcomes, s.wire.length)) (exec .initPoll
    (scripted (rep 6 0xFF#8 ++ [0x00#8]))) = some ([.ok], 7) := by decide
/-- V55: the second frame's result 0x05. -/
theorem test_init_poll_fails : shows (fun s => (s.outcomes, s.seq, s.wire.length))
    (resume { scripted (rep 6 0xFF#8 ++ [0x05#8]) with seq := [.initPoll 1] }) =
      some ([.failed (.initFailed (.byte 0x05#8))], [], 7) := by decide
/-- V58. -/
theorem test_expect_ready : shows (fun s => (s.outcomes, s.wire.length)) (exec .expectReady
    (scripted (rep 7 0xFF#8 ++ [0x00#8]))) = some ([.ok], 8) := by decide
/-- V59. -/
theorem test_expect_ready_idle : shows (·.outcomes) (exec .expectReady (scripted (rep 6 0xFF#8 ++ [0x01#8]))) =
    some [.failed (.blockLenConfigFailed (.byte 0x01#8))] := by decide
/-- P3: RESET answered 0x00. -/
theorem test_init_fails : shows (fun s => (s.outcomes, s.div, s.cs, sent s)) (exec .init
    (scripted (rep 16 0xFF#8 ++ [0x00#8]))) = some ([.rc (-1) (some (.resetFailed (.byte 0x00#8)))], 61#32, 1#1,
      rep 10 0xFF#8 ++ [0x40#8, 0#8, 0#8, 0#8, 0#8, 0x95#8] ++ [0xFF#8]) := by decide
/-- P5: the fastest card, 31 exchanges. -/
theorem test_init_succeeds : shows (fun s => (s.outcomes, s.div, s.wire.length)) (exec .init
    (scripted (rep 16 0xFF#8 ++ [0x01#8] ++ rep 6 0xFF#8 ++ [0x00#8] ++ rep 6 0xFF#8 ++ [0x00#8]))) =
      some ([.rc 0 none], 4#32, 31) := by decide

/-- A state with a four-byte block, chip select asserted (P4). -/
def fourBytes (bytes : List Byte) : State :=
  { scripted bytes with cs := 1#1, div := 4#32, cfg := { Config.default with blockSize := 4#32 } }

/-- P4 and V62: the start token is stored as data, the trailing byte dropped. -/
theorem test_read_block : shows (fun s => (s.mem, s.rxLatch, s.wire.length)) (exec (.readBlock 0x200#32 0x8000)
    (fourBytes (rep 7 0xFF#8 ++ [0x00#8, 0xFE#8, 0xDE#8, 0xAD#8, 0xBE#8, 0xEF#8, 0x12#8, 0x34#8]))) =
      some ([(0x8000, 0xFE#8), (0x8001, 0xDE#8), (0x8002, 0xAD#8), (0x8003, 0xBE#8)], 0xEF#8, 13) := by decide
/-- U19: a buffer that would run into the register window. -/
theorem test_read_block_bad : refusal (exec (.readBlock 0#32 0x57) (fourBytes [])) = some .badDestination := by
  decide

/-- R79. -/
theorem test_responses :
    [shows (·.outcomes) (exec .respBusy State.reset), shows (·.outcomes) (exec .respIdle State.reset),
        shows (·.outcomes) (exec .respReady State.reset), shows (·.outcomes) (otherResponse 0x02#8 State.reset)] =
      [some [.cls .busy], some [.cls .idle], some [.cls .ready], some [.cls .other]] := by decide
/-- R85. -/
theorem test_dummy : shows sent (exec .dummy (scripted [])) = some [0xFF#8] := by decide

/-- What a sequence returns, and the exchanges of the run. -/
def returned {α : Type} : Run α → Option (α × Nat)
  | .ret a s => some (a, s.wire.length)
  | .raised _ _ | .refused _ => none

/-- V44a and V45, with a budget of 3: the last poll still counts, and a byte after it is not read; R141: the budget
is 100. -/
theorem test_poll_budget : Config.default.resultRetries = 100 ∧
    returned (pollResult 3 (scripted [0xFF#8, 0xFF#8, 0x00#8])) = some (.byte 0x00#8, 3) ∧
    returned (pollResult 3 (scripted [0xFF#8, 0xFF#8, 0xFF#8, 0x00#8])) = some (.timeout, 3) := by decide

/-! ### Steps -/

/-- V19: the engine's step, with the host's list empty. -/
theorem test_step_engine : shows (fun s => (s.wire, s.rxLatch, s.rxValid, s.busy))
    (step { inFlight 0x12#8 with card := .script [0x34#8] 0xFF#8 }) =
      some ([⟨0#1, 0x12#8, 0x34#8⟩], 0x34#8, true, false) := by decide
/-- The host's next operation is decoded, run and taken from the list. -/
theorem test_step_host : shows (fun s => (s.div, s.host)) (step
    { State.reset with host := [.bus .write 0x54 4 61#32, .byteOut 0xFF#8] }) =
      some (61#32, [.byteOut 0xFF#8]) := by decide
/-- A word of the table placed at reset is what the next step runs. -/
theorem test_step_fetched : shows (fun s => (s.cs, s.outcomes)) (step (State.reset.withFetchWord 32 0x50)) =
    some (0#1, [.done]) := by decide
/-- V25 as a step: the decoder's refusal is the step's. -/
theorem test_step_refused : refusal (step { State.reset with host := [.bus .read 0x44 4 0#32] }) =
    some .wrongDirection := by decide

/-! ### Every statement with hypotheses: a state and operands that meet them -/

/-- `AtSpec` for a configuration with OPEN parameters other than the defaults; FrameBitLayout and ParameterValues. -/
theorem test_hyp_AtSpec : Config.default.AtSpec ∧
    { cfgAt with blockSize := 4#32, trailingDiscard := 0, initPollCap := some 3 }.AtSpec := ⟨rfl, rfl⟩
theorem test_hyp_FrameWireOrder : cfgAt.AtSpec ∧ (63 : Nat) ≤ 63 := ⟨rfl, by decide⟩
theorem test_hyp_FrameDecodesExactly : cfgAt.AtSpec ∧
    decodeFrame cfgAt [0x7F#8, 0#8, 0#8, 0#8, 1#8, 0x95#8] = some (63, 1#32) ∧
      (63 ≤ 63 ∧ [0x7F#8, 0#8, 0#8, 0#8, 1#8, 0x95#8] = frameBytes cfgAt 63 1#32) := ⟨rfl, by decide⟩
/-- DecodeOfEncode, at R6's parameters and at others. -/
theorem test_hyp_DecodeOfEncode : cfgAt.wf = true ∧
    { cfgAt with offTx := 0x40, frameMarker := 0xC0#8, cmdReset := 9, systemClockHz := 1000000, runHz := 500000 }.wf =
      true := by decide
theorem test_hyp_BusAccessDispatch : cfgAt.AtSpec ∧
    cfgAt.regBase % 4 = 0 ∧ ∀ off ∈ [0, 0x40, 0x44, 0x48, 0x4c, 0x50, 0x54, 0x58], off % 4 = 0 :=
  ⟨rfl, by decide⟩
theorem test_hyp_NarrowOrMisalignedRefused : cfgAt.AtSpec ∧
    (0x1045 % 4 ≠ 0 ∧ 0x1057 % 4 ≠ 0) ∧
      ∀ addr ∈ [0x1044, 0x1054], ∀ width ∈ [0, 1, 2, 3, 5, 8], addr % 4 = 0 ∧ width ≠ 4 ∧
        cfgAt.regBase ≤ addr ∧ addr - cfgAt.regBase ∈ [0x44, 0x48, 0x4c, 0x50, 0x54] :=
  ⟨rfl, by simp [cfgAt]⟩
theorem test_hyp_ResultClasses :
    (∀ b ∈ [0x02#8, 0xFE#8], 0x02 ≤ b.toNat ∧ b.toNat ≤ 0xFE) ∧
      returned (getResult (scripted [0xFE#8])) = some (.byte 0xFE#8, 1) := by decide

/-- WrTxStartsExchange, ConfigWritesStore, SetCsIsOneWrite, SetClockWritesDivisor (both ends of its range) and
ResponseBytesClassified and, its ranges met too, PseudoOperationsExpand. -/
theorem test_hyp_idle : State.reset.cfg.AtSpec ∧ State.reset.seq = [] ∧ State.reset.busy = false ∧
    (∀ hz ∈ [1, 25000000], 1 ≤ hz ∧ hz ≤ 25000000) ∧ ∀ v ∈ [0#32, 1#32], v = 0#32 ∨ v = 1#32 :=
  ⟨rfl, rfl, rfl, by simp, by simp⟩
theorem test_hyp_RdRxReturnsLatch : State.reset.cfg.AtSpec ∧
    State.reset.seq = [] ∧ { State.reset with rxLatch := 0x34#8, rxValid := true }.rxValid = true := ⟨rfl, by decide⟩
theorem test_hyp_RdStatusShowsCompletion : (inFlight 0#8).cfg.AtSpec ∧
    State.reset.seq = [] ∧ (inFlight 0#8).seq = [] := ⟨rfl, by decide⟩
theorem test_hyp_RegisterRefusals : (inFlight 0#8).cfg.AtSpec ∧
    (inFlight 0#8).seq = [] ∧ (inFlight 0#8).busy = true ∧
      (∀ v ∈ [2#32, 0xFFFFFFFF#32], v ≠ 0#32 ∧ v ≠ 1#32) ∧ (1#32 = 0#32 ∨ 1#32 = (1#32 : Word)) ∧
      (∀ hz ∈ [0, 25000001], hz = 0 ∨ 25000000 < hz) ∧ ∀ hz ∈ [1, 25000000], 1 ≤ hz ∧ hz ≤ 25000000 :=
  ⟨rfl, rfl, rfl, by simp, .inr rfl, by simp, by simp⟩

/-- Every statement over a quiet state: TransferExchangesOneByte, TransferPollsUntilComplete, DummyExchangesOnes,
CommandFramesSent, GetResultFirstNonBusy, ExpectIdleAcceptsOnlyIdle and ExpectReadyAcceptsOnlyReady; and, no poll cap
set, InitRunsItsSteps. -/
theorem test_hyp_quiet : State.reset.quiet ∧ State.reset.cfg.initPollCap = none := ⟨⟨rfl, rfl, rfl, rfl⟩, rfl⟩
theorem test_hyp_SendCommandSendsSixBytes : (scripted []).quiet ∧ (0 ≤ 63 ∧ 63 ≤ 63) :=
  ⟨⟨rfl, rfl, rfl, rfl⟩, by decide⟩

/-- A state with a cap of `n` on status polls, read as `r`. -/
def capped (r : CapReading) (n : Nat) : State :=
  { State.reset with cfg := { Config.default with transferPollCap := some n, capReading := r } }

/-- R113's and R185's counts of reads, and both at a cap of 0. -/
theorem test_timeout_reads : [CapReading.exceeded, .reached].map (fun r => [0, 1, 3].map fun cap =>
    { Config.default with capReading := r }.timeoutReads cap) = [[1, 2, 4], [1, 1, 3]] := by decide
/-- TransferWithPollCap, in both readings of the cap. -/
theorem test_hyp_TransferWithPollCap : ∀ r ∈ [CapReading.exceeded, .reached], ∀ cap ∈ [0, 3],
    (capped r cap).cfg.AtSpec ∧ (capped r cap).seq = [] ∧ (capped r cap).busy = false ∧
      (capped r cap).cfg.transferPollCap = some cap ∧ (capped r cap).cfg.capReading = r :=
  fun _ _ _ _ => ⟨rfl, rfl, rfl, rfl, rfl⟩

/-- INIT_POLL in progress, `m` iterations done, alone or inside INIT, against a card that always answers `b`. -/
def polling (fs : List Frame) (b : Byte) : State := { always b with seq := fs, cs := 1#1, div := 61#32 }

/-- INIT_POLL's cap set to `n`, in the state `s`. -/
def withInitCap (s : State) (n : Nat) : State := { s with cfg := { s.cfg with initPollCap := some n } }

/-- InitPollPass: the first pass and a later one, no cap set; and the same with a cap not reached. -/
theorem test_hyp_InitPollPass : ∀ s ∈ [State.reset, polling [.initPoll 3] 0x01#8],
    (s.busy = false ∧ s.cfg.AtSpec ∧ s.cfg.transferPollCap = none ∧ s.cfg.initPollCap = none) ∧
      ((withInitCap s 4).cfg.AtSpec ∧ ∀ m ∈ [0, 3], (withInitCap s 4).cfg.initPollCap ≠ some m) ∧
      (s.seq = [] ∨ s.seq = [.initPoll 3]) := by
  rintro s h
  obtain rfl | rfl := by simpa using h
  · exact ⟨⟨rfl, rfl, rfl, rfl⟩, ⟨rfl, by simp [withInitCap]⟩, .inl rfl⟩
  · exact ⟨⟨rfl, rfl, rfl, rfl⟩, ⟨rfl, by simp [withInitCap]⟩, .inr rfl⟩

/-- InitPollCapped: the cap 0 at the first pass, and the cap reached at a later one, alone and inside INIT. -/
theorem test_hyp_InitPollCapped :
    ((withInitCap State.reset 0).cfg.initPollCap = some 0 ∧ (withInitCap State.reset 0).seq = []) ∧
      ((withInitCap (polling [.initPoll 3] 1#8) 3).cfg.initPollCap = some 3 ∧
        (withInitCap (polling [.initPoll 3] 1#8) 3).seq = [.initPoll 3]) ∧
      (withInitCap (polling [.initPoll 1, .init] 1#8) 1).cfg.initPollCap = some 1 ∧
      (withInitCap (polling [.initPoll 1, .init] 1#8) 1).seq = [.initPoll 1, .init] := by decide
/-- R146 with a cap of 3: after three idle results it is reached. -/
theorem test_init_poll_capped : shows (fun s => (s.outcomes, s.wire.length))
    (resume (withInitCap (polling [.initPoll 3] 0x01#8) 3)) = some ([.failed .initFailedCapped], 0) := by decide
theorem test_hyp_InitPollNeverGivesUp :
    (polling [.initPoll 0, .init] 0x01#8).seq = [.initPoll 0, .init] ∧
      (polling [.initPoll 0, .init] 0x01#8).busy = false ∧ (polling [.initPoll 0, .init] 0x01#8).cfg.AtSpec ∧
      (polling [.initPoll 0, .init] 0x01#8).cfg.transferPollCap = none ∧
      (polling [.initPoll 0, .init] 0x01#8).cfg.initPollCap = none ∧
      ∀ w, ((polling [.initPoll 0, .init] 0x01#8).card.command (polling [.initPoll 0, .init] 0x01#8).cs w 1
        0#32).1 = .byte 0x01#8 :=
  ⟨rfl, rfl, rfl, rfl, rfl, fun _ => by simp [polling, always, Card.command, Card.poll, Card.answer]⟩

/-- INIT inside INIT_POLL with 7 passes done, no cap set and a cap not reached: InitRunsItsSteps. -/
theorem test_hyp_InitRunsItsSteps_resumed :
    (polling [.initPoll 7, .init] 0x00#8).seq = [.initPoll 7, .init] ∧
      (polling [.initPoll 7, .init] 0x00#8).busy = false ∧ (polling [.initPoll 7, .init] 0x00#8).cfg.AtSpec ∧
      (polling [.initPoll 7, .init] 0x00#8).cfg.transferPollCap = none ∧
      (polling [.initPoll 7, .init] 0x00#8).cfg.initPollCap ≠ some 7 ∧
      (withInitCap (polling [.initPoll 7, .init] 0x00#8) 8).cfg.initPollCap ≠ some 7 :=
  ⟨rfl, rfl, rfl, rfl, by decide⟩
/-- InitRunsItsSteps, with a cap of 0. -/
theorem test_hyp_InitRunsItsSteps_capped : (withInitCap State.reset 0).quiet ∧
    (withInitCap State.reset 0).cfg.initPollCap = some 0 := ⟨⟨rfl, rfl, rfl, rfl⟩, rfl⟩

/-- The card of P5's INIT. -/
def fastCard : State :=
  scripted (rep 16 0xFF#8 ++ [0x01#8] ++ rep 6 0xFF#8 ++ [0x00#8] ++ rep 6 0xFF#8 ++ [0x00#8])

theorem test_hyp_InitConfigWrites_succeeds : fastCard.quiet ∧ fastCard.cfg.initPollCap = none ∧
    ∃ t, exec .init fastCard = .next t ∧ t.outcomes = [.rc 0 none] :=
  ⟨⟨rfl, rfl, rfl, rfl⟩, rfl, next_of_shows (f := (·.outcomes)) (by decide)⟩
theorem test_hyp_InitConfigWrites_fails : (always 0x05#8).quiet ∧ (always 0x05#8).cfg.initPollCap = none ∧
    ∃ t, exec .init (always 0x05#8) = .next t ∧ t.outcomes = [.rc (-1) (some (.resetFailed (.byte 0x05#8)))] :=
  ⟨⟨rfl, rfl, rfl, rfl⟩, rfl, next_of_shows (f := (·.outcomes)) (by decide)⟩

/-- InitConfigWrites, a later pass: the card that is ready at once, and BLOCK_SIZE accepted, so that INIT returns 0; and
one that still answers idle. -/
theorem test_hyp_InitConfigWrites_resumed : ∀ b ∈ [0x00#8, 0x01#8],
    (polling [.initPoll 1, .init] b).seq = [.initPoll 1, .init] ∧ (polling [.initPoll 1, .init] b).busy = false ∧
      (polling [.initPoll 1, .init] b).cfg.AtSpec ∧ (polling [.initPoll 1, .init] b).cfg.transferPollCap = none ∧
      ∃ t, resume (polling [.initPoll 1, .init] b) = .next t ∧
        t.outcomes = if b = 0x00#8 then [.rc 0 none] else [] := by
  rintro b h
  obtain rfl | rfl := by simpa using h
  · exact ⟨rfl, rfl, rfl, rfl, next_of_shows (f := (·.outcomes)) (by decide)⟩
  · exact ⟨rfl, rfl, rfl, rfl, next_of_shows (f := (·.outcomes)) (by decide)⟩

/-- ReadBlockFillsBuffer, with a buffer that ends where the window begins and one that begins where it ends. -/
theorem test_hyp_ReadBlockFillsBuffer : (fourBytes []).quiet ∧
    { (fourBytes []).cfg with regBase := 0x1000 }.admits 0xFFC 4 = true ∧
    { (fourBytes []).cfg with regBase := 0x1000 }.admits 0x1058 4 = true ∧
    { (fourBytes []).cfg with hostMem := .regions [⟨0x8000, 4⟩] }.admits 0x8000 4 = true ∧
    (fourBytes []).cfg.admits 0x8000 (fourBytes []).cfg.blockSize.toNat = true :=
  ⟨⟨rfl, rfl, rfl, rfl⟩, by decide⟩
/-- SequenceRefusals: an index and buffers that are refused, and ones that are not, with an exchange in flight. -/
theorem test_hyp_SequenceRefusals : (fourBytes []).cfg.AtSpec ∧ State.reset.seq = [] ∧ 63 < 64 ∧
    (fourBytes []).cfg.admits 0x57 (fourBytes []).cfg.blockSize.toNat = false ∧
    { (fourBytes []).cfg with hostMem := .regions [⟨0x8000, 3⟩] }.admits 0x8000 4 = false ∧
    (inFlight 0#8).seq = [] ∧ (inFlight 0#8).busy = true ∧ 63 ≤ 63 ∧ (inFlight 0#8).cfg.initPollCap ≠ some 0 ∧
    (inFlight 0#8).cfg.admits 0x58 (inFlight 0#8).cfg.blockSize.toNat = true := ⟨rfl, by decide⟩

/-- The host about to write CS, with no exchange in flight, or with one in flight and its turn. -/
def aboutToWrite (busy : Bool) : State :=
  { State.reset with busy := busy, host := [.bus .write 0x50 4 1#32, .invoke .init] }

theorem test_hyp_StepRunsDecoded : ∀ b ∈ [false, true],
    (aboutToWrite b).seq = [] ∧ (aboutToWrite b).host = [.bus .write 0x50 4 1#32, .invoke .init] ∧
      ((aboutToWrite b).busy = false ∨ (aboutToWrite b).turn = .host) ∧
      decode (aboutToWrite b).cfg (.bus .write 0x50 4 1#32) = .instr (.wrCs 1#32) ∧
      (Instr.wrCs 1#32).wf (aboutToWrite b).cfg = true := by decide
theorem test_hyp_StepResumesOperation :
    (polling [.initPoll 0] 0x00#8).seq ≠ [] ∧ (polling [.initPoll 0] 0x00#8).busy = false := by decide
theorem test_hyp_EngineCompletesExchange :
    ((inFlight 5#8).busy = true ∧ (inFlight 5#8).seq = [] ∧ (inFlight 5#8).host = []) ∧
      { aboutToWrite true with turn := .engine }.busy = true ∧
      { aboutToWrite true with turn := .engine }.turn = .engine := by decide
theorem test_hyp_EndedRunRests : State.reset.seq = [] ∧ State.reset.host = [] ∧ State.reset.busy = false ∧
    State.reset.turn = .host := by decide
theorem test_hyp_FetchedWordRuns :
    tableRequest State.reset.cfg 48 0x570001240095 =
        some (.frame [0x57#8, 0x00#8, 0x01#8, 0x24#8, 0x00#8, 0x95#8]) ∧
      decode State.reset.cfg (.frame [0x57#8, 0x00#8, 0x01#8, 0x24#8, 0x00#8, 0x95#8]) =
        .instr (.cmdReadBlock 0x00012400#32) := by decide

/-- MemoryFrame and ConfigFrame (whose parameters have R6's values): a READ_BLOCK with a next state, and the addresses on
both sides of its buffer; and DivisorHasNoEffect, ReturnsWithNothingInFlight and OperationsThatCannotFail. -/
theorem test_hyp_frames : (fourBytes []).cfg.AtSpec ∧ (∃ t, exec (.readBlock 0#32 0x8000) (fourBytes []) = .next t) ∧
    (¬ storesTo (fourBytes []).cfg (.readBlock 0#32 0x8000) 0x7FFF ∧
      ¬ storesTo (fourBytes []).cfg (.readBlock 0#32 0x8000) 0x8004) ∧
    writesConfig (.readBlock 0#32 0x8000) = false ∧ (fourBytes []).busy = false ∧
    (fourBytes []).cfg.transferPollCap = none ∧ cannotFail (.readBlock 0#32 0x8000) = true ∧
    ∀ v, Instr.readBlock 0#32 0x8000 ≠ .wrTx v :=
  ⟨rfl, (next_of_shows (f := (·.busy)) (a := false) (by decide)).imp fun _ h => h.1,
    ⟨by simp [storesTo], by simp [storesTo, fourBytes]⟩, rfl, rfl, rfl, rfl, by simp⟩
theorem test_hyp_RegisterAccessFrame : (∃ t, exec .rdRx State.reset = .next t) ∧ exchangesBytes .rdRx = false ∧
    ∀ v, Instr.rdRx ≠ .wrTx v := ⟨⟨_, rfl⟩, rfl, by simp⟩
theorem test_hyp_StepOnlyAppends : ∃ t, step (aboutToWrite false) = .next t := ⟨_, rfl⟩

/-- StepKeepsInv and InvStepNeverFaults: the invariant with an exchange in flight after one that has completed. -/
theorem test_hyp_StepKeepsInv :
    let s : State := { State.reset with
      txData := 0x41#8, rxLatch := 0xFF#8, busy := true, wire := [⟨0#1, 0x40#8, 0xFF#8⟩]
      trace := [.regW 0x44 0x40#32, .xchg ⟨0#1, 0x40#8, 0xFF#8⟩, .regW 0x44 0x41#32], mem := [(4, 1#8), (9, 0#8)] }
    Inv s ∧ ∃ t, step s = .next t :=
  ⟨⟨rfl, rfl, rfl, rfl, rfl, by simp, rfl, fun h => absurd rfl h, by simp [State.reset]⟩, _, rfl⟩
theorem test_hyp_InitInProgressIsSlow : (polling [.initPoll 0, .init] 0x01#8).cfg.AtSpec ∧
    (Frame.init ∈ (polling [.initPoll 0, .init] 0x01#8).seq ∧ (polling [.initPoll 0, .init] 0x01#8).cs = 1#1 ∧
      (polling [.initPoll 0, .init] 0x01#8).div = 61#32) ∧
      ∃ t, step (polling [.initPoll 0, .init] 0x01#8) = .next t ∧ t.seq = [.initPoll 1, .init] :=
  ⟨rfl, by decide, next_of_shows (f := (·.seq)) (by decide)⟩
theorem test_hyp_ScriptedCardInOrder :
    let s : State :=
      { inFlight 0x40#8 with card := .script [0x01#8, 0x02#8] 0xFF#8, wire := [⟨1#1, 0x95#8, 0x01#8⟩] }
    s.card = .script [0x01#8, 0x02#8] 0xFF#8 ∧
      (∀ n x, s.wire[n]? = some x → x.miso = [0x01#8, 0x02#8].getD n 0xFF#8) ∧ ∃ t, step s = .next t :=
  ⟨rfl, fun n x h => by cases n <;> simp at h; simp [← h], _, rfl⟩

/-- OtherBytesDecode: both ends of the class other, and a byte sent. -/
theorem test_hyp_OtherBytesDecode : cfgAt.AtSpec ∧
    (∀ b ∈ [0x02#8, 0xFE#8], 0x02 ≤ b.toNat ∧ b.toNat ≤ 0xFE) ∧ 0xFE#8 ≠ 0xFF#8 := ⟨rfl, by decide⟩
/-- OtherResponseClassified, with no exchange in flight, or with one and the host's turn. -/
theorem test_hyp_OtherResponseClassified : ∀ busy ∈ [false, true], ∀ b ∈ [0x02#8, 0xFE#8],
    let s : State := { State.reset with busy := busy, host := [.byteIn b, .invoke .init] }
    s.seq = [] ∧ s.host = [.byteIn b, .invoke .init] ∧ (s.busy = false ∨ s.turn = .host) ∧
      0x02 ≤ b.toNat ∧ b.toNat ≤ 0xFE := by decide

end Sys2Proof.Tests
end

section
/-! SUPPORT. The proof of what 00_scope.md R6 says of the parameters. -/

namespace Sys2Proof.Proofs

open Sys2Proof.Config

/-- Settles O52: `AtSpec` gives each value by the laws of Laws/Params.lean; conversely the nineteen stored values
fix every parameter that `AtSpec` does not leave open, and CS_DEASSERT follows from CS_ASSERT. -/
theorem parameterValues : Obligations.ParameterValues := by
  refine ⟨fun c => ⟨fun h => ?valuesOfAtSpec, ?atSpecOfValues⟩, rfl, rfl, rfl, rfl, rfl⟩
  case valuesOfAtSpec =>
    exact ⟨systemClockHz_atSpec h, regWidth_atSpec h, offTx_atSpec h, offRx_atSpec h, offStatus_atSpec h, offCs_atSpec h,
      offDiv_atSpec h, csAssert_atSpec h, csDeassert_atSpec h, frameMarker_atSpec h, checksum_atSpec h, dummy_atSpec h,
      resultRetries_atSpec h, powerupTransfers_atSpec h, initHz_atSpec h, runHz_atSpec h, cmdReset_atSpec h,
      cmdInit_atSpec h, cmdSetBlockLen_atSpec h, cmdReadBlock_atSpec h⟩
  case atSpecOfValues =>
    cases c
    rintro ⟨rfl, rfl, rfl, rfl, rfl, rfl, rfl, rfl, -, rfl, rfl, rfl, rfl, rfl, rfl, rfl, rfl, rfl, rfl, rfl⟩
    rfl

end Sys2Proof.Proofs
end

section
/-! SUPPORT. The proofs of what 30_encoding.md says of a command frame: its bit layout and its bytes on the wire. -/

namespace Sys2Proof.Proofs

variable {c : Config}

/-- The six bytes of a frame at R6's checksum, one by one (R71, R75). -/
theorem frameBytes_eq_bytes (h : c.AtSpec) (idx : Nat) (p : Word) :
    frameBytes c idx p = [commandByte c idx, p.extractLsb' 24 8, p.extractLsb' 16 8, p.extractLsb' 8 8,
      p.extractLsb' 0 8, 0x95#8] := by
  rw [frameBytes, Config.checksum_atSpec h]; rfl

/-- R74: an index of six bits leaves the two marker bits of the command byte as they are. -/
theorem commandByte_eq_append (h : c.AtSpec) (i : BitVec 6) : commandByte c i.toNat = 0b01#2 ++ i := by
  rw [commandByte, Config.frameMarker_atSpec h, BitVec.ofNat_toNat, BitVec.append_def]
  rfl

/-- R74: `0x40 | index` is `0x40 + index` for an index of six bits, whose bits the marker does not share. -/
theorem commandByte_toNat (h : c.AtSpec) {idx : Nat} (hi : idx ≤ 63) : (commandByte c idx).toNat = 0x40 + idx := by
  have hlt : idx < 2 ^ 6 := by omega
  have hb := congrArg BitVec.toNat (commandByte_eq_append h (BitVec.ofNatLT idx hlt))
  rw [BitVec.toNat_ofNatLT, BitVec.toNat_append, BitVec.toNat_ofNatLT, ← Nat.shiftLeft_add_eq_or_of_lt hlt] at hb
  exact hb

/-- Two adjacent fields of a word, the lower one a byte, join to one field behind whatever stands before them. -/
theorem append_extractLsb'_byte {n : Nat} (a : BitVec n) (p : Word) (k s : Nat) :
    a ++ p.extractLsb' (s + 8) k ++ p.extractLsb' s 8 = a ++ p.extractLsb' s (k + 8) := by
  rw [← BitVec.extractLsb'_append_extractLsb'_eq_extractLsb' rfl]
  exact BitVec.append_assoc

/-- The parameter's bytes, most significant first, are the parameter (R71). -/
theorem append_paramBytes {n : Nat} (a : BitVec n) (p : Word) :
    a ++ p.extractLsb' 24 8 ++ p.extractLsb' 16 8 ++ p.extractLsb' 8 8 ++ p.extractLsb' 0 8 = a ++ p :=
  calc a ++ p.extractLsb' 24 8 ++ p.extractLsb' 16 8 ++ p.extractLsb' 8 8 ++ p.extractLsb' 0 8
    _ = a ++ p.extractLsb' 16 16 ++ p.extractLsb' 8 8 ++ p.extractLsb' 0 8 := by rw [append_extractLsb'_byte a p 8 16]
    _ = a ++ p.extractLsb' 8 24 ++ p.extractLsb' 0 8 := by rw [append_extractLsb'_byte a p 16 8]
    _ = a ++ p.extractLsb' 0 32 := append_extractLsb'_byte a p 24 0
    _ = a ++ p := by rw [BitVec.extractLsb'_eq_self]

/-- A byte field of a word by shift and mask (R75). -/
theorem extractLsb'_byte_toNat (p : Word) (k : Nat) : (p.extractLsb' k 8).toNat = (p.toNat >>> k) &&& 0xFF := by
  rw [BitVec.extractLsb'_toNat]
  exact (Nat.and_two_pow_sub_one_eq_mod _ 8).symm

/-- Settles O1: the command byte is the marker before the index, and the four bytes after it join to the parameter. -/
theorem frameBitLayout : Obligations.FrameBitLayout := by
  intro c i p h
  refine ⟨_, _, _, _, _, _, frameBytes_eq_bytes h i.toNat p, ?_⟩
  rw [commandByte_eq_append h, append_paramBytes]

/-- Settles O2: byte by byte, the command byte by addition and each parameter byte by shift and mask. -/
theorem frameWireOrder : Obligations.FrameWireOrder := by
  intro c idx p h hi
  simp only [frameBytes_eq_bytes h, List.map_cons, List.map_nil, commandByte_toNat h hi, extractLsb'_byte_toNat,
    Nat.shiftRight_zero, BitVec.reduceToNat]

end Sys2Proof.Proofs
end

section
/-! SUPPORT. The proofs of what 40_register_ops.md says of the configuration operations. -/

namespace Sys2Proof.Proofs

open Sys2Proof.Machine

/-- SET_CS's operation is its one register write, answered with `done` (R97). -/
theorem exec_setCs (level : Bit) (s : State) : exec (.setCs level) s = invoke (fun _ => .done) (setCs level) s := rfl

/-- Settles O13: with nothing in flight the write of CS returns, and no operation being in progress its state is the
next one. -/
theorem setCsIsOneWrite : Obligations.SetCsIsOneWrite := by
  intro s level hspec hseq hbusy
  have hwrite := setCs_atSpec level hspec hbusy
  rw [exec_setCs, invoke_ret hseq hwrite]
  rfl

end Sys2Proof.Proofs
end

section
/-! SUPPORT. The proofs of what 43_sd_response.md says of GET_RESULT and of the classes of a result. -/

namespace Sys2Proof.Proofs

open Sys2Proof.Machine

/-! ### The classes of a result -/

/-- R142: a byte that is none of 0x00, 0x01 and 0xFF is of the class other. -/
theorem classifyByte_other {b : Byte} (hlow : 0x02 ≤ b.toNat) (hhigh : b.toNat ≤ 0xFE) : classifyByte b = .other := by
  have hbusy : b ≠ Param.busyByte := by rintro rfl; exact absurd hhigh (by decide)
  have hidle : b ≠ Param.idleByte := by rintro rfl; exact absurd hlow (by decide)
  have hready : b ≠ Param.readyByte := by rintro rfl; exact absurd hlow (by decide)
  rw [classifyByte, if_neg hbusy, if_neg hidle, if_neg hready]

/-- A chain returns exactly when its first sequence returns and the rest returns from there. -/
theorem bind_eq_ret {α β : Type} {x : Run α} {k : α → State → Run β} {b : β} {t : State} :
    x.bind k = .ret b t ↔ ∃ a u, x = .ret a u ∧ k a u = .ret b t := by
  cases x <;> simp

/-- R141: a poll that receives 0xFF goes on, so no number of polls returns 0xFF as a byte. -/
theorem pollResult_byte_ne_busy {n : Nat} {s t : State} {b : Byte} (h : pollResult n s = .ret (.byte b) t) :
    b ≠ Param.busyByte := by
  induction n generalizing s with
  | zero => cases h
  | succ n ih =>
    obtain ⟨r, u, -, hrest⟩ := bind_eq_ret.mp h
    by_cases hr : r = Param.busyByte
    · rw [if_pos hr] at hrest
      exact ih hrest
    · rw [if_neg hr] at hrest
      cases hrest
      exact hr

/-- Settles O8: the three named values by evaluation, the range by exclusion, and 0xFF by induction on the polls. -/
theorem resultClasses : Obligations.ResultClasses :=
  ⟨rfl, rfl, rfl, fun _ hlow hhigh => classifyByte_other hlow hhigh, fun _ _ _ h => pollResult_byte_ne_busy h⟩

/-! ### The polls of GET_RESULT -/

/-- The exchange of one poll: 0xFF sent (R141). -/
def pollExchange (c : Card) (cs : Bit) (w : List Xchg) : Xchg :=
  { cs := cs, mosi := 0xFF#8, miso := c.answer w cs 0xFF#8 }

section Poll
variable {c : Card} {cs : Bit} {w : List Xchg}

theorem poll_succ_of_busy (n : Nat) (h : (pollExchange c cs w).miso = 0xFF#8) :
    c.poll cs (n + 1) w = c.poll cs n (w ++ [pollExchange c cs w]) := if_pos h

theorem poll_succ_of_answer (n : Nat) (h : (pollExchange c cs w).miso ≠ 0xFF#8) :
    c.poll cs (n + 1) w = (.byte (pollExchange c cs w).miso, w ++ [pollExchange c cs w]) := if_neg h

theorem extend_replicate_succ (n : Nat) : c.extend cs w (List.replicate (n + 1) 0xFF#8) =
    c.extend cs (w ++ [pollExchange c cs w]) (List.replicate n 0xFF#8) := rfl

end Poll

/-- `xs` and then `x` are what at most `n` polls add to the wire `w`, with result `r`: every answer before the last is
0xFF, and the last is the result, or it is the `n`-th and 0xFF too (R141). -/
structure PollsUntil (c : Card) (cs : Bit) (n : Nat) (w xs : List Xchg) (x : Xchg) (r : Result) : Prop where
  sent : w ++ xs ++ [x] = c.extend cs w (List.replicate (xs.length + 1) 0xFF#8)
  count : xs.length + 1 ≤ n
  busyBefore : ∀ y ∈ xs, y.miso = 0xFF#8
  result : r = .byte x.miso ∧ x.miso ≠ 0xFF#8 ∨ r = .timeout ∧ x.miso = 0xFF#8 ∧ xs.length + 1 = n

/-- A first poll that is the last: it is answered, or no other is left. -/
theorem PollsUntil.single {c : Card} {cs : Bit} {n : Nat} {w : List Xchg} {r : Result} (hn : 1 ≤ n)
    (h : r = .byte (pollExchange c cs w).miso ∧ (pollExchange c cs w).miso ≠ 0xFF#8 ∨
      r = .timeout ∧ (pollExchange c cs w).miso = 0xFF#8 ∧ 1 = n) :
    PollsUntil c cs n w [] (pollExchange c cs w) r where
  sent := congrArg (· ++ [pollExchange c cs w]) (List.append_nil w)
  count := hn
  busyBefore := List.forall_mem_nil _
  result := h

/-- A poll that receives 0xFF stands before the polls after it. -/
theorem PollsUntil.cons {c : Card} {cs : Bit} {n : Nat} {w xs : List Xchg} {x : Xchg} {r : Result}
    (hbusy : (pollExchange c cs w).miso = 0xFF#8) (h : PollsUntil c cs n (w ++ [pollExchange c cs w]) xs x r) :
    PollsUntil c cs (n + 1) w (pollExchange c cs w :: xs) x r where
  sent := by rw [List.length_cons, extend_replicate_succ, ← h.sent]; simp
  count := Nat.succ_le_succ h.count
  busyBefore := List.forall_mem_cons.mpr ⟨hbusy, h.busyBefore⟩
  result := h.result.imp_right fun ⟨hr, hx, hn⟩ => ⟨hr, hx, congrArg Nat.succ hn⟩

/-- R141: at least one poll, and the polls stop at the first answer other than 0xFF or when none is left. -/
theorem poll_pollsUntil (c : Card) (cs : Bit) (n : Nat) (w : List Xchg) : ∃ xs x,
    (c.poll cs (n + 1) w).2 = w ++ xs ++ [x] ∧ PollsUntil c cs (n + 1) w xs x (c.poll cs (n + 1) w).1 := by
  induction n generalizing w with
  | zero =>
    refine ⟨[], pollExchange c cs w, ?_⟩
    by_cases h : (pollExchange c cs w).miso = 0xFF#8
    · rw [poll_succ_of_busy 0 h]
      exact ⟨by simp [Card.poll], .single le_rfl (.inr ⟨rfl, h, rfl⟩)⟩
    · rw [poll_succ_of_answer 0 h]
      exact ⟨by simp, .single le_rfl (.inl ⟨rfl, h⟩)⟩
  | succ n ih =>
    by_cases h : (pollExchange c cs w).miso = 0xFF#8
    · rw [poll_succ_of_busy _ h]
      obtain ⟨xs, x, hwire, hpolls⟩ := ih (w ++ [pollExchange c cs w])
      exact ⟨pollExchange c cs w :: xs, x, by simp [hwire], hpolls.cons h⟩
    · rw [poll_succ_of_answer _ h]
      exact ⟨[], pollExchange c cs w, by simp, .single (Nat.succ_pos _) (.inl ⟨rfl, h⟩)⟩

/-- GET_RESULT's operation answers the host with its result (R141). -/
theorem exec_getResult (s : State) : exec .getResult s = invoke .result getResult s := rfl

/-- A sequence that only exchanges bytes, invoked with no operation in progress, answers the host with its value. -/
theorem exchanges_of_returns {α : Type} {reply : α → Reply} {body : State → Run α} {s : State} {w : List Xchg} {a : α}
    (hseq : s.seq = []) (h : Returns s w a (body s)) : Exchanges s w (reply a) (invoke reply body s) := by
  obtain ⟨tr, d, hret, hobs⟩ := h
  exact ⟨tr, d, invoke_ret hseq hret, hobs⟩

/-- Settles O23: GET_RESULT brings the wire to the card's 100 polls, which stop at the first answer other than 0xFF. -/
theorem getResultFirstNonBusy : Obligations.GetResultFirstNonBusy := by
  rintro s ⟨hseq, hbusy, hspec, hcap⟩
  obtain ⟨xs, x, hwire, hpolls⟩ := poll_pollsUntil s.card s.cs 99 s.wire
  have hret := getResult_returns hbusy hspec hcap
  rw [hwire] at hret
  exact ⟨xs, x, _, exec_getResult s ▸ exchanges_of_returns hseq hret, hpolls.sent, hpolls.count, hpolls.busyBefore,
    hpolls.result⟩

end Sys2Proof.Proofs
end

section
/-! SUPPORT. The proofs of what 43_sd_response.md says of the validators EXPECT_IDLE and EXPECT_READY. -/

namespace Sys2Proof.Proofs

open Sys2Proof.Machine

/-- EXPECT_IDLE's operation answers the host with ok where it returns (R145). -/
theorem exec_expectIdle (s : State) : exec .expectIdle s = invoke (fun _ => .ok) expectIdle s := rfl

/-- EXPECT_READY's operation answers the host with ok where it returns (R147). -/
theorem exec_expectReady (s : State) : exec .expectReady s = invoke (fun _ => .ok) expectReady s := rfl

/-- A validator, invoked with no operation in progress, that exchanges bytes and then accepts if `p` holds and raises `f`
in the same state if not (R189): the host is answered ok, or the failure. -/
theorem exchanges_of_verdict {body : State → Run Unit} {s : State} {w : List Xchg} {tr : List Event} {d : Nat}
    {p : Prop} [Decidable p] {f : Failure} (hseq : s.seq = [])
    (hobs : observed tr = observed s.trace ++ transferEvents (w.drop s.wire.length))
    (h : body s = if p then .ret () (s.afterWire w tr d) else .raised f (s.afterWire w tr d)) :
    Exchanges s w (if p then .ok else .failed f) (invoke (fun _ => .ok) body s) := by
  by_cases hp : p
  · rw [if_pos hp] at h ⊢
    exact ⟨tr, d, invoke_ret hseq h, hobs⟩
  · rw [if_neg hp] at h ⊢
    exact ⟨tr, d, invoke_raised hseq h, hobs⟩

/-- Settles O25: CMD_RESET's frame and its polls, then the verdict on the result. -/
theorem expectIdleAcceptsOnlyIdle : Obligations.ExpectIdleAcceptsOnlyIdle := by
  rintro s ⟨hseq, hbusy, hspec, hcap⟩
  obtain ⟨tr, d, hobs, hverdict⟩ := expectIdle_quiet hbusy hspec hcap
  rw [exec_expectIdle]
  exact exchanges_of_verdict hseq hobs hverdict

/-- Settles O26: CMD_SET_BLOCK_LEN's frame and its polls, then the verdict on the result. -/
theorem expectReadyAcceptsOnlyReady : Obligations.ExpectReadyAcceptsOnlyReady := by
  rintro s ⟨hseq, hbusy, hspec, hcap⟩
  obtain ⟨tr, d, hobs, hverdict⟩ := expectReady_quiet hbusy hspec hcap
  rw [exec_expectReady]
  exact exchanges_of_verdict hseq hobs hverdict

end Sys2Proof.Proofs
end

section
/-! SUPPORT. The proof of what 60_exceptions.md says of the operations that cannot fail. -/

namespace Sys2Proof.Proofs

open Sys2Proof.Machine

/-! ### Sequences that raise no failure outcome -/

/-- The sequence raises no failure outcome, and where it returns its state satisfies `P`. A refusal is no failure. -/
def Unfailing {α : Type} (P : State → Prop) : Run α → Prop
  | .ret _ s => P s
  | .raised _ _ => False
  | .refused _ => True

/-- One unfailing sequence after another is unfailing. -/
theorem Unfailing.bind {α β : Type} {P Q : State → Prop} {x : Run α} {k : α → State → Run β}
    (hx : Unfailing P x) (hk : ∀ a u, P u → Unfailing Q (k a u)) : Unfailing Q (x.bind k) := by
  cases x with
  | ret a u => exact hk a u hx
  | raised f u => exact hx.elim
  | refused q => trivial

/-- No cap bounds the status polls, which is R6's default, and the host has been answered `rs` so far: what a sequence
keeps while it runs. -/
structure Uncapped (rs : List Reply) (s : State) : Prop where
  cap : s.cfg.transferPollCap = none
  outcomes : s.outcomes = rs

section Sequences
variable {rs : List Reply} {s : State}

theorem wrTx_unfailing (v : Word) (h : Uncapped rs s) : Unfailing (Uncapped rs) (wrTx v s) := by
  cases hb : s.busy
  · rw [wrTx_idle v hb]; exact ⟨h.cap, h.outcomes⟩
  · rw [wrTx_busy v hb]; trivial

theorem rdRx_unfailing (h : Uncapped rs s) : Unfailing (Uncapped rs) (rdRx s) := by
  cases hv : s.rxValid
  · rw [rdRx_invalid hv]; exact ⟨h.cap, h.outcomes⟩
  · rw [rdRx_valid hv]; exact ⟨h.cap, h.outcomes⟩

theorem rdStatus_unfailing (h : Uncapped rs s) : Unfailing (Uncapped rs) (rdStatus s) := ⟨h.cap, h.outcomes⟩

theorem wrCs_unfailing (v : Word) (h : Uncapped rs s) : Unfailing (Uncapped rs) (wrCs v s) := by
  unfold wrCs
  split
  · trivial
  · split
    · trivial
    · exact ⟨h.cap, h.outcomes⟩

theorem wrDiv_unfailing (v : Word) (h : Uncapped rs s) : Unfailing (Uncapped rs) (wrDiv v s) := by
  unfold wrDiv
  split
  · trivial
  · exact ⟨h.cap, h.outcomes⟩

theorem setClock_unfailing (hz : Nat) (h : Uncapped rs s) : Unfailing (Uncapped rs) (setClock hz s) := by
  unfold setClock
  split
  · exact wrDiv_unfailing _ h
  · trivial

/-- R113, R185: TransferTimeout needs a cap. -/
theorem transfer_unfailing (b : Byte) (h : Uncapped rs s) : Unfailing (Uncapped rs) (transfer b s) := by
  cases hb : s.busy
  · rw [transfer_exact b hb (by simp [h.cap])]; exact ⟨h.cap, h.outcomes⟩
  · rw [transfer, wrTx_busy _ hb]; trivial

theorem transferAll_unfailing (bs : List Byte) (h : Uncapped rs s) : Unfailing (Uncapped rs) (transferAll bs s) := by
  induction bs generalizing s with
  | nil => exact h
  | cons b bs ih => exact (transfer_unfailing b h).bind fun _ _ hu => ih hu

theorem sendCommand_unfailing (idx : Nat) (p : Word) (h : Uncapped rs s) :
    Unfailing (Uncapped rs) (sendCommand idx p s) := by
  unfold sendCommand
  split
  · exact transferAll_unfailing _ h
  · trivial

/-- R141: GET_RESULT's `timeout` is a value it returns and no failure outcome. -/
theorem pollResult_unfailing (n : Nat) (h : Uncapped rs s) : Unfailing (Uncapped rs) (pollResult n s) := by
  induction n generalizing s with
  | zero => exact h
  | succ n ih =>
    refine (transfer_unfailing _ h).bind fun r u hu => ?_
    split
    · exact ih hu
    · exact hu

theorem readBytes_unfailing (n a : Nat) (h : Uncapped rs s) : Unfailing (Uncapped rs) (readBytes n a s) := by
  induction n generalizing a s with
  | zero => exact h
  | succ n ih => exact (transfer_unfailing _ h).bind fun _ _ hu => ih (a + 1) ⟨hu.cap, hu.outcomes⟩

/-- R148, R173: READ_BLOCK accepts every result of its GET_RESULT. -/
theorem readBlock_unfailing (addr : Word) (dest : Nat) (h : Uncapped rs s) :
    Unfailing (Uncapped rs) (readBlock addr dest s) := by
  unfold readBlock
  split
  · exact (sendCommand_unfailing _ addr h).bind fun _ _ hsent =>
      (pollResult_unfailing _ hsent).bind fun _ _ hpolled =>
        (readBytes_unfailing _ dest hpolled).bind fun _ _ hread => transferAll_unfailing _ hread
  · trivial

end Sequences

/-! ### Operations that answer without a failure outcome -/

/-- An operation whose sequence is unfailing answers the host once, with the reply its value gives. -/
theorem outcomes_of_unfailing {α : Type} {reply : α → Reply} {body : State → Run α} {s t : State}
    (hbody : Unfailing (Uncapped s.outcomes) (body s)) (h : invoke reply body s = .next t) :
    ∃ a, t.outcomes = s.outcomes ++ [reply a] := by
  obtain ⟨-, ⟨a, u, hret, rfl⟩ | ⟨f, u, hraised, rfl⟩⟩ := invoke_eq_next.mp h
  · rw [hret] at hbody
    exact ⟨a, by rw [State.answer_outcomes, hbody.outcomes]⟩
  · rw [hraised] at hbody
    exact hbody.elim

/-- What R187 says of an operation `i` that leads from `s` to `t`: one reply, which is a value or nothing, and nothing
for READ_BLOCK. -/
def AnswersWithoutFailure (i : Instr) (s t : State) : Prop :=
  ∃ r, t.outcomes = s.outcomes ++ [r] ∧ (r = .done ∨ (∃ v, r = .word v) ∨ ∃ b, r = .byte b) ∧
    ((∃ addr dest, i = .readBlock addr dest) → r = .done)

section Answers
variable {i : Instr} {s t : State}

theorem answersWithoutFailure_of_done {α : Type} {body : State → Run α}
    (hbody : Unfailing (Uncapped s.outcomes) (body s)) (h : invoke (fun _ => .done) body s = .next t) :
    AnswersWithoutFailure i s t :=
  have ⟨_, ho⟩ := outcomes_of_unfailing hbody h
  ⟨.done, ho, .inl rfl, fun _ => rfl⟩

theorem answersWithoutFailure_of_word {body : State → Run Word} (hi : ∀ addr dest, i ≠ .readBlock addr dest)
    (hbody : Unfailing (Uncapped s.outcomes) (body s)) (h : invoke .word body s = .next t) :
    AnswersWithoutFailure i s t :=
  have ⟨v, ho⟩ := outcomes_of_unfailing hbody h
  ⟨.word v, ho, .inr (.inl ⟨v, rfl⟩), fun ⟨addr, dest, he⟩ => absurd he (hi addr dest)⟩

theorem answersWithoutFailure_of_byte {body : State → Run Byte} (hi : ∀ addr dest, i ≠ .readBlock addr dest)
    (hbody : Unfailing (Uncapped s.outcomes) (body s)) (h : invoke .byte body s = .next t) :
    AnswersWithoutFailure i s t :=
  have ⟨b, ho⟩ := outcomes_of_unfailing hbody h
  ⟨.byte b, ho, .inr (.inr ⟨b, rfl⟩), fun ⟨addr, dest, he⟩ => absurd he (hi addr dest)⟩

end Answers

/-- Settles O45: the sequence of each listed operation is unfailing without a cap, so the operation answers with its
value's reply. -/
theorem operationsThatCannotFail : Obligations.OperationsThatCannotFail := by
  intro i s t h hlisted hcap
  have hs : Uncapped s.outcomes s := ⟨hcap, rfl⟩
  cases i with
  | wrTx v => exact answersWithoutFailure_of_done (wrTx_unfailing v hs) h
  | rdRx => exact answersWithoutFailure_of_word nofun (rdRx_unfailing hs) h
  | rdStatus => exact answersWithoutFailure_of_word nofun (rdStatus_unfailing hs) h
  | wrCs v => exact answersWithoutFailure_of_done (wrCs_unfailing v hs) h
  | wrDiv v => exact answersWithoutFailure_of_done (wrDiv_unfailing v hs) h
  | setCs level => exact answersWithoutFailure_of_done (wrCs_unfailing (csWord level) hs) h
  | setClock hz => exact answersWithoutFailure_of_done (setClock_unfailing hz hs) h
  | transfer b => exact answersWithoutFailure_of_byte nofun (transfer_unfailing b hs) h
  | sendCommand idx p => exact answersWithoutFailure_of_done (sendCommand_unfailing idx p hs) h
  | cmdReset => exact answersWithoutFailure_of_done (sendCommand_unfailing _ _ hs) h
  | cmdInit => exact answersWithoutFailure_of_done (sendCommand_unfailing _ _ hs) h
  | cmdSetBlockLen => exact answersWithoutFailure_of_done (sendCommand_unfailing _ _ hs) h
  | cmdReadBlock addr => exact answersWithoutFailure_of_done (sendCommand_unfailing _ _ hs) h
  | readBlock addr dest => exact answersWithoutFailure_of_done (readBlock_unfailing addr dest hs) h
  | getResult | expectIdle | initPoll | expectReady | init | dummy | respBusy | respIdle | respReady => cases hlisted

end Sys2Proof.Proofs
end

section
/-! SUPPORT. The proofs of what 30_encoding.md and 20_memory.md say of the decoder: it gives every encoded operation
back, accepts exactly the frames, and names what it refuses. -/

namespace Sys2Proof.Proofs

variable {c : Config}

/-! ### Frames -/

/-- A byte is its bits outside a mask joined with those inside it. -/
theorem and_not_or_and (b k : Byte) : b &&& ~~~k ||| b &&& k = b := by
  rw [BitVec.or_comm, ← BitVec.and_or_distrib_left, BitVec.or_not_self, BitVec.and_allOnes]

/-- An index of six bits lies inside the index field (R71). -/
theorem index_and_indexMask {idx : Nat} (hi : idx ≤ 63) :
    BitVec.ofNat 8 idx &&& Param.indexMask = BitVec.ofNat 8 idx := by
  have all : ∀ i : Fin 64, BitVec.ofNat 8 i &&& Param.indexMask = BitVec.ofNat 8 i := by decide
  exact all ⟨idx, by omega⟩

/-- A byte field above the last byte is one of what stands before that byte. -/
theorem extractLsb'_append_byte {n : Nat} (a : BitVec n) (b : Byte) (k : Nat) :
    (a ++ b).extractLsb' (k + 8) 8 = a.extractLsb' k 8 := BitVec.extractLsb'_append_eq_of_le (Nat.le_add_left 8 k)

/-- The parameter's bytes are the four bytes that join to it (R75). -/
theorem paramBytes_append (b1 b2 b3 b4 : Byte) : paramBytes (b1 ++ b2 ++ b3 ++ b4) = [b1, b2, b3, b4] := by
  rw [paramBytes, extractLsb'_append_byte _ b4 16, extractLsb'_append_byte _ b3 8, extractLsb'_append_byte b1 b2 0,
    extractLsb'_append_byte _ b4 8, extractLsb'_append_byte _ b3 0, extractLsb'_append_byte _ b4 0,
    BitVec.extractLsb'_append_eq_right, BitVec.extractLsb'_append_eq_right, BitVec.extractLsb'_append_eq_right,
    BitVec.extractLsb'_eq_self]

/-- The parameter's four bytes join to it (R71). -/
theorem join_paramBytes (p : Word) :
    p.extractLsb' 24 8 ++ p.extractLsb' 16 8 ++ p.extractLsb' 8 8 ++ p.extractLsb' 0 8 = p := by
  have hhigh : p.extractLsb' 24 8 ++ p.extractLsb' 16 8 = p.extractLsb' 16 16 :=
    BitVec.extractLsb'_append_extractLsb'_eq_extractLsb' rfl
  rw [hhigh]
  exact (append_extractLsb'_byte (p.extractLsb' 16 16) p 8 0).trans <|
    (BitVec.extractLsb'_append_extractLsb'_eq_extractLsb' rfl).trans BitVec.extractLsb'_eq_self

section Marker
variable (hm : c.frameMarker &&& Param.indexMask = 0#8)
include hm

/-- The marker stands above the index in the command byte (R71, R74). -/
theorem commandByte_marker {idx : Nat} (hi : idx ≤ 63) : commandByte c idx &&& ~~~Param.indexMask = c.frameMarker := by
  have hmarker := and_not_or_and c.frameMarker Param.indexMask
  rw [hm, BitVec.or_zero] at hmarker
  have hindex : BitVec.ofNat 8 idx &&& ~~~Param.indexMask = 0#8 := by
    rw [← index_and_indexMask hi, BitVec.and_assoc, BitVec.and_not_self]; exact BitVec.and_zero
  rw [commandByte, BitVec.and_or_distrib_right, hmarker, hindex, BitVec.or_zero]

/-- The index stands below the marker in the command byte (R71, R74). -/
theorem commandByte_index {idx : Nat} (hi : idx ≤ 63) : commandByte c idx &&& Param.indexMask = BitVec.ofNat 8 idx := by
  rw [commandByte, BitVec.and_or_distrib_right, hm, BitVec.zero_or, index_and_indexMask hi]

theorem decodeFrame_frameBytes {idx : Nat} (p : Word) (hi : idx ≤ 63) :
    decodeFrame c (frameBytes c idx p) = some (idx, p) := by
  have hidx : (BitVec.ofNat 8 idx).toNat = idx := Nat.mod_eq_of_lt (by omega)
  simp only [frameBytes, paramBytes, List.cons_append, List.nil_append, decodeFrame, commandByte_marker hm hi,
    commandByte_index hm hi, join_paramBytes, hidx, and_self, if_true]

/-- The decoder accepts exactly the frames (R71, R74), wherever the marker leaves the index its bits. -/
theorem decodeFrame_eq_some_iff {bytes : List Byte} {idx : Nat} {p : Word} :
    decodeFrame c bytes = some (idx, p) ↔ idx ≤ 63 ∧ bytes = frameBytes c idx p := by
  constructor
  · intro h
    unfold decodeFrame at h
    split at h
    · next b0 b1 b2 b3 b4 b5 =>
      obtain ⟨⟨hmarker, hchecksum⟩, he⟩ := Option.ite_none_right_eq_some.mp h
      cases he
      refine ⟨?_, ?_⟩
      · rw [BitVec.toNat_and]; exact Nat.and_le_right
      · rw [frameBytes, commandByte, paramBytes_append, ← hmarker, ← hchecksum, BitVec.ofNat_toNat, BitVec.setWidth_eq,
          and_not_or_and]
        rfl
    · cases h
  · rintro ⟨hi, rfl⟩
    exact decodeFrame_frameBytes hm p hi

end Marker

/-- Settles O3: R6's marker leaves the index its bits. -/
theorem frameDecodesExactly : Obligations.FrameDecodesExactly := by
  intro c bytes idx p hspec
  exact decodeFrame_eq_some_iff (by rw [Config.frameMarker_atSpec hspec]; rfl)

/-! ### Register accesses -/

/-- A register found at an offset is the one whose offset it is (R52). -/
theorem offset_of_regAt {off : Nat} {r : Reg} (h : regAt c off = some r) : off = r.offset c := by
  unfold regAt at h
  split_ifs at h <;> cases h <;> assumption

/-- Where no register is found the offset is none of the five (R53). -/
theorem ne_offset_of_regAt_none {off : Nat} (h : regAt c off = none) (r : Reg) : off ≠ r.offset c := by
  unfold regAt at h
  split_ifs at h
  cases r <;> assumption

/-- Each register is found at its offset, the five offsets being different (R24). -/
theorem regAt_offset (h : c.offsets.Nodup) (r : Reg) : regAt c (r.offset c) = some r := by
  simp only [Config.offsets, List.nodup_cons, List.mem_cons] at h
  cases r <;> grind [regAt, Reg.offset]

section Bus
variable {dir : Dir} {v : Word} {addr off width : Nat}

theorem decodeBus_misaligned (h : addr % c.regBytes ≠ 0) :
    decodeBus c dir addr width v = .reject .narrowOrMisalignedRegisterAccess := if_pos h

/-- An aligned access at no register (R53). -/
theorem decodeBus_none (ha : (c.regBase + off) % c.regBytes = 0) (hr : regAt c off = none) :
    decodeBus c dir (c.regBase + off) width v = .reject .offsetOutOfScope := by
  rw [decodeBus, if_neg (not_not.mpr ha), if_neg (by omega), Nat.add_sub_cancel_left, hr]

/-- An aligned access at a register, of another width than the register's (R51). -/
theorem decodeBus_narrow {r : Reg} (ha : (c.regBase + off) % c.regBytes = 0) (hr : regAt c off = some r)
    (hw : width ≠ c.regBytes) :
    decodeBus c dir (c.regBase + off) width v = .reject .narrowOrMisalignedRegisterAccess := by
  rw [decodeBus, if_neg (not_not.mpr ha), if_neg (by omega), Nat.add_sub_cancel_left, hr]
  exact if_pos hw

/-- An aligned access of the register's width is that register's in the direction given (R52). -/
theorem decodeBus_some {r : Reg} (ha : (c.regBase + off) % c.regBytes = 0) (hr : regAt c off = some r) :
    decodeBus c dir (c.regBase + off) c.regBytes v = decodeReg r dir v := by
  rw [decodeBus, if_neg (not_not.mpr ha), if_neg (by omega), Nat.add_sub_cancel_left, hr]
  exact if_neg (not_not.mpr rfl)

end Bus

/-- The offset of each register at R6's values (R24). -/
theorem offset_atSpec (h : c.AtSpec) (r : Reg) :
    r.offset c = match r with | .tx => 0x44 | .rx => 0x48 | .status => 0x4c | .cs => 0x50 | .div => 0x54 := by
  cases r
  exacts [c.offTx_atSpec h, c.offRx_atSpec h, c.offStatus_atSpec h, c.offCs_atSpec h, c.offDiv_atSpec h]

/-- Settles O5: an aligned access is a register's in the direction given, or at none of the five offsets. -/
theorem busAccessDispatch : Obligations.BusAccessDispatch := by
  intro c off v hspec hbase hoff
  have hbytes := Config.regBytes_atSpec hspec
  have ha : (c.regBase + off) % c.regBytes = 0 := by rw [hbytes]; omega
  simp only [decode, ← hbytes]
  cases hr : regAt c off with
  | none =>
    have hne := fun r => offset_atSpec hspec r ▸ ne_offset_of_regAt_none hr r
    simp [decodeBus_none ha hr, hne .tx, hne .rx, hne .status, hne .cs, hne .div]
  | some r =>
    have he := (offset_of_regAt hr).trans (offset_atSpec hspec r)
    rw [decodeBus_some ha hr, decodeBus_some ha hr]
    subst he
    cases r <;> exact ⟨rfl, rfl⟩

/-- Settles O6: alignment is tested first; at one of the five offsets a register is found, whose width is
tested next. -/
theorem narrowOrMisalignedRefused : Obligations.NarrowOrMisalignedRefused := by
  intro c dir addr width v hspec
  have hbytes := Config.regBytes_atSpec hspec
  refine ⟨fun h => decodeBus_misaligned (hbytes ▸ h), fun halign hwidth hbase hmem => ?_⟩
  obtain ⟨off, rfl⟩ := Nat.exists_eq_add_of_le hbase
  rw [Nat.add_sub_cancel_left] at hmem
  cases hr : regAt c off with
  | none =>
    have hne := fun r => offset_atSpec hspec r ▸ ne_offset_of_regAt_none hr r
    simp [hne .tx, hne .rx, hne .status, hne .cs, hne .div] at hmem
  | some r => exact decodeBus_narrow (hbytes ▸ halign) hr (hbytes ▸ hwidth)

/-! ### Bytes -/

/-- A received byte that is none of 0x00, 0x01 and 0xFF has no row (R79, R86). -/
theorem decodeByteIn_other {b : Byte} (hlow : 0x02 ≤ b.toNat) (hhigh : b.toNat ≤ 0xFE) :
    decodeByteIn b = .otherResponse b := by
  have hbusy : b ≠ Param.busyByte := by rintro rfl; exact absurd hhigh (by decide)
  have hidle : b ≠ Param.idleByte := by rintro rfl; exact absurd hlow (by decide)
  have hready : b ≠ Param.readyByte := by rintro rfl; exact absurd hlow (by decide)
  rw [decodeByteIn, if_neg hbusy, if_neg hidle, if_neg hready]

/-- Settles O53: a received byte by its range, a sent one by whether it is R6's DUMMY. -/
theorem otherBytesDecode : Obligations.OtherBytesDecode := by
  intro c b hspec
  have hdummy := Config.dummy_atSpec hspec
  refine ⟨decodeByteIn_other, fun hb => ?_, ?_⟩
  · rw [decode, decodeByteOut, hdummy, if_neg hb]
  · rw [decode, decodeByteOut, hdummy, if_pos rfl]

/-- Settles O7: eight closed evaluations at R6's default parameters. -/
theorem tableWordsDecode : Obligations.TableWordsDecode := by
  refine ⟨?_, ?_, ?_, ?_, ?_, ?_, ?_, ?_⟩ <;> decide

/-! ### Decoding after encoding -/

/-- What `Config.wf` says that the decoder needs: registers on aligned offsets apart from one another, a marker that
leaves the index its bits, four different indices of six bits. -/
theorem wf_decoding (h : c.wf = true) : c.regBase % c.regBytes = 0 ∧ (∀ r : Reg, r.offset c % c.regBytes = 0) ∧
    c.offsets.Nodup ∧ c.frameMarker &&& Param.indexMask = 0#8 ∧ (∀ idx ∈ c.commands, idx ≤ 63) ∧ c.commands.Nodup := by
  simp only [Config.wf, Bool.and_eq_true, beq_iff_eq, decide_eq_true_eq, List.all_eq_true] at h
  obtain ⟨⟨⟨⟨⟨⟨⟨⟨⟨-, hbase⟩, halign⟩, hoffsets⟩, hmarker⟩, hrange⟩, hcommands⟩, -⟩, -⟩, -⟩ := h
  refine ⟨hbase, fun r => halign _ ?_, hoffsets, hmarker, hrange, hcommands⟩
  cases r <;> simp [Config.offsets, Reg.offset]

/-- A register access put on the bus is that register's in the direction given. -/
theorem decode_busAccess (h : c.wf = true) (dir : Dir) (r : Reg) (v : Word) :
    decode c (busAccess c dir r v) = decodeReg r dir v := by
  obtain ⟨hbase, halign, hoffsets, -⟩ := wf_decoding h
  have ha : (c.regBase + r.offset c) % c.regBytes = 0 := by rw [Nat.add_mod, hbase, halign]; rfl
  exact decodeBus_some ha (regAt_offset hoffsets r)

/-- A frame is the operation of its index and parameter. -/
theorem decode_frame (h : c.wf = true) {idx : Nat} (p : Word) (hi : idx ∈ c.commands) :
    decode c (.frame (frameBytes c idx p)) = .instr (frameInstr c idx p) := by
  obtain ⟨-, -, -, hmarker, hrange, -⟩ := wf_decoding h
  simp only [decode, decodeFrame_frameBytes hmarker p (hrange idx hi)]

/-- The index and the parameter of a CMD_ row are that row (R78): the four indices are different. -/
theorem frameInstr_commands (h : c.wf = true) : frameInstr c c.cmdReset 0#32 = .cmdReset ∧
    frameInstr c c.cmdInit 0#32 = .cmdInit ∧ frameInstr c c.cmdSetBlockLen c.blockSize = .cmdSetBlockLen ∧
    ∀ addr, frameInstr c c.cmdReadBlock addr = .cmdReadBlock addr := by
  obtain ⟨-, -, -, -, -, hcommands⟩ := wf_decoding h
  simp only [Config.commands, List.nodup_cons, List.mem_cons] at hcommands
  grind [frameInstr]

/-- Settles O4: a register access by its address, a command by its frame, a byte by its value; an operation invoked by
name is its own form. -/
theorem decodeOfEncode : Obligations.DecodeOfEncode := by
  intro c i h
  obtain ⟨hreset, hinit, hsetBlockLen, hreadBlock⟩ := frameInstr_commands h
  cases i with
  | wrTx v => exact decode_busAccess h .write .tx v
  | rdRx => exact decode_busAccess h .read .rx 0#32
  | rdStatus => exact decode_busAccess h .read .status 0#32
  | wrCs v => exact decode_busAccess h .write .cs v
  | wrDiv v => exact decode_busAccess h .write .div v
  | cmdReset => rw [encode, decode_frame h _ (by simp [Config.commands]), hreset]
  | cmdInit => rw [encode, decode_frame h _ (by simp [Config.commands]), hinit]
  | cmdSetBlockLen => rw [encode, decode_frame h _ (by simp [Config.commands]), hsetBlockLen]
  | cmdReadBlock addr => rw [encode, decode_frame h _ (by simp [Config.commands]), hreadBlock]
  | dummy => rw [encode, decode, decodeByteOut, if_pos rfl]
  | respBusy | respIdle | respReady => rfl
  | setCs | setClock | transfer | sendCommand | getResult => rfl
  | expectIdle | initPoll | expectReady | init | readBlock => rfl

end Sys2Proof.Proofs
end

section
/-! SUPPORT. The proofs of what every step keeps: the invariant of the state, what it says of faults, and what only
grows. -/

namespace Sys2Proof.Proofs

open Sys2Proof.Machine

/-! ### The invariant -/

/-- The part of the invariant that every elementary move keeps: parameters, memory, wire, trace and latch. -/
structure DataInv (s : State) : Prop where
  parameters : s.cfg.AtSpec
  memory : s.mem.wf = true
  wire : s.wire = s.trace.filterMap Event.exchanged
  sent : s.trace.filterMap Event.sentByte = s.wire.map (·.mosi) ++ (if s.busy then [s.txData] else [])
  valid : s.rxValid = (!s.busy && !s.wire.isEmpty)
  latch : ∀ x, s.wire.getLast? = some x → s.rxLatch = x.miso

/-- `Inv` is `DataInv`, a legal sequencer and a settled turn. -/
theorem inv_iff (s : State) : Inv s ↔ DataInv s ∧ seqLegal s.seq = true ∧ (s.seq ≠ [] → s.busy = false) ∧
    (s.turn = .engine → s.busy = true) :=
  ⟨fun h => ⟨⟨h.parameters, h.memory, h.wire, h.sent, h.valid, h.latch⟩, h.sequencer, h.between, h.engine⟩,
    fun ⟨h, hseq, hbetween, hengine⟩ =>
      ⟨h.parameters, h.memory, h.wire, h.sent, h.valid, h.latch, hseq, hbetween, hengine⟩⟩

/-- The other fields are free: chip select, divisor, sequencer, outcomes, the host's list, draws and turn. -/
theorem DataInv.untouched {s : State} (h : DataInv s) (cs : Bit) (div : Word) (seq : List Frame) (rs : List Reply)
    (host : List Request) (d : Nat) (turn : Agent) : DataInv { s with
      cs := cs, div := div, seq := seq, outcomes := rs, host := host, draws := d, turn := turn } :=
  ⟨h.parameters, h.memory, h.wire, h.sent, h.valid, h.latch⟩

/-- An event that is neither an exchange nor a TX write leaves the data invariant as it is. -/
theorem DataInv.emit {s : State} (h : DataInv s) {e : Event} (hx : e.exchanged = none) (hb : e.sentByte = none) :
    DataInv (s.emit e) :=
  ⟨h.parameters, h.memory, by simp [hx, h.wire], by simp [hb]; exact h.sent, h.valid, h.latch⟩

/-- R41, R90, R111: a TX write puts one byte in flight, and the engine's step makes its exchange. -/
theorem micro_keeps_dataInv {cfgw : Prop} {st : Nat → Prop} {s t : State} (hm : Micro cfgw st s t) (h : DataInv s) :
    DataInv t := by
  cases hm with
  | tx v hb =>
    have hsent := h.sent
    simp only [hb, Bool.false_eq_true, if_false, List.append_nil] at hsent
    exact ⟨h.parameters, h.memory, by simp [h.wire, Event.exchanged],
      by simp [hsent, Event.sentByte, Config.offTx_atSpec h.parameters], by simp, h.latch⟩
  | rx b => exact h.emit rfl rfl
  | status u => exact h.emit rfl rfl
  | cs v hc hb =>
    exact (h.emit (e := .regW s.cfg.offCs v) rfl
      (by simp [Event.sentByte, Config.offCs_atSpec h.parameters])).untouched ..
  | div v hc hb =>
    exact (h.emit (e := .regW s.cfg.offDiv v) rfl
      (by simp [Event.sentByte, Config.offDiv_atSpec h.parameters])).untouched ..
  | engine hb =>
    have hsent := h.sent
    simp only [hb, if_true] at hsent
    exact ⟨h.parameters, h.memory, by simp [← h.wire, Event.exchanged], by simp [hsent, Event.sentByte], by simp,
      by simp⟩
  | store a b hs => exact ⟨h.parameters, Memory.wf_write a b h.memory, h.wire, h.sent, h.valid, h.latch⟩
  | draw n => exact h.untouched ..

theorem micro_keeps_seq {cfgw : Prop} {st : Nat → Prop} {s t : State} (hm : Micro cfgw st s t) : t.seq = s.seq := by
  cases hm <;> rfl

/-- An operation that begins with no other in progress ends with none in progress, or at a legal position of the
sequencer with nothing in flight. -/
theorem dataInv_of_leaves {cfgw : Prop} {st : Nat → Prop} {s u t : State} (hs : DataInv s) (hseq : s.seq = [])
    (hu : Micros cfgw st s u) (ht : Leaves u t) :
    DataInv t ∧ seqLegal t.seq = true ∧ (t.seq ≠ [] → t.busy = false) := by
  have hdata : DataInv u := hu.keeps (fun _ _ hm => micro_keeps_dataInv hm) hs
  have huseq : u.seq = [] := (hu.same (·.seq) fun _ _ hm => micro_keeps_seq hm).trans hseq
  obtain ⟨r, rfl⟩ | ⟨fs, hlegal, hbusy, rfl⟩ := ht
  · have hnone : (u.answer r).seq = [] := huseq
    exact ⟨hdata.untouched .., by rw [hnone]; rfl,
      fun h => absurd hnone h⟩
  · exact ⟨hdata.untouched .., hlegal, fun _ => hbusy⟩

/-- Settling the turn gives the engine the turn only while an exchange is in flight (R111). -/
theorem inv_reschedule {v : State} (h : DataInv v) (hseq : seqLegal v.seq = true)
    (hbetween : v.seq ≠ [] → v.busy = false) : Inv (reschedule v) := by
  have hdata : DataInv (reschedule v) := by unfold reschedule; split <;> exact h.untouched ..
  refine (inv_iff _).mpr ⟨hdata, ?_, ?_, fun ht => ?_⟩
  · rwa [reschedule_seq]
  · rwa [reschedule_seq, reschedule_busy]
  · rw [reschedule_busy]; exact reschedule_turn v ht

/-- Settles O46: the elementary moves keep the data invariant, an operation leaves the sequencer legal, and the turn is
settled last. -/
theorem stepKeepsInv : Obligations.StepKeepsInv := by
  intro s t hinv hstep
  obtain ⟨hdata, hseq, hbetween, -⟩ := (inv_iff s).mp hinv
  obtain ⟨v, rfl, hmove⟩ := step_inversion hstep
  have hkept : DataInv v ∧ seqLegal v.seq = true ∧ (v.seq ≠ [] → v.busy = false) := by
    obtain ⟨hbusy, rfl⟩ | ⟨-, u, hu, hl⟩ | ⟨hnone, r, rest, u, -, hu, hl⟩ | ⟨hnone, -, rfl⟩ := hmove
    · exact ⟨micro_keeps_dataInv (.engine (cfgw := True) (st := fun _ => True) s hbusy) hdata, hseq, fun _ => rfl⟩
    · exact dataInv_of_leaves (hdata.untouched ..) rfl hu hl
    · exact dataInv_of_leaves (s := { s with host := rest }) (hdata.untouched ..) hnone hu hl
    · exact ⟨hdata, hseq, hbetween⟩
  obtain ⟨hdata', hseq', hbetween'⟩ := hkept
  exact inv_reschedule hdata' hseq' hbetween'

/-- Settles O47: at reset nothing has been sent or received and no operation is in progress. -/
theorem resetHasInv : Obligations.ResetHasInv where
  parameters := rfl
  memory := rfl
  wire := rfl
  sent := rfl
  valid := rfl
  latch := fun _ h => by cases h
  sequencer := rfl
  between := fun h => absurd rfl h
  engine := fun h => by cases h

/-! ### No fault -/

/-- The outcome is no fault. -/
def NoFault (o : Host.Outcome State Fault Refusal) : Prop := ∀ f, o ≠ .fault f

theorem noFault_whenIdle {s : State} {k : Host.Outcome State Fault Refusal} (h : NoFault k) :
    NoFault (whenIdle s k) := by
  unfold whenIdle
  split
  · exact h
  · nofun

theorem noFault_invoke {α : Type} (reply : α → Reply) (body : State → Run α) (s : State) :
    NoFault (invoke reply body s) := by
  refine noFault_whenIdle ?_
  generalize Run.bind (body s) _ = x
  cases x <;> nofun

theorem noFault_endPollAlone (x : Run PollEnd) : NoFault (endPollAlone x) := by
  match x with
  | .ret .ready u => nofun
  | .ret (.again m) u => nofun
  | .raised f u => nofun
  | .refused q => nofun

theorem noFault_endInit (x : Run Unit) : NoFault (endInit x) := by
  cases x <;> nofun

theorem noFault_endPollInInit (x : Run PollEnd) : NoFault (endPollInInit x) := by
  match x with
  | .ret .ready u => exact noFault_endInit _
  | .ret (.again m) u => nofun
  | .raised f u => nofun
  | .refused q => nofun

/-- No operation faults when it is invoked (R185). -/
theorem noFault_exec (i : Instr) (s : State) : NoFault (exec i s) := by
  cases i
  case initPoll => exact noFault_whenIdle (noFault_endPollAlone _)
  case init => exact noFault_whenIdle (noFault_endPollInInit _)
  all_goals exact noFault_invoke _ _ _

/-- An operation in progress at a legal position of the sequencer does not fault when it goes on. -/
theorem noFault_resume {s : State} (hseq : s.seq ≠ []) (hlegal : seqLegal s.seq = true) : NoFault (resume s) := by
  unfold resume
  split
  · exact noFault_endPollAlone _
  · exact noFault_endPollInInit _
  · next halone hinit =>
    unfold seqLegal at hlegal
    split at hlegal <;> simp_all

theorem noFault_runRequest (r : Request) (s : State) : NoFault (runRequest r s) := by
  unfold runRequest
  split
  · exact noFault_exec _ _
  · exact noFault_invoke _ _ _
  · nofun

/-- Only a malformed sequencer faults, and the invariant rules it out. -/
theorem noFault_move {s : State} (hinv : Inv s) : NoFault (move s) := by
  unfold move
  split
  · nofun
  · unfold hostMove
    split
    · next hseq => exact noFault_resume (by simp [hseq]) hinv.sequencer
    · exact noFault_runRequest _ _
    · nofun

/-- Settles O48: settling the turn adds no fault to the move. -/
theorem invStepNeverFaults : Obligations.InvStepNeverFaults := by
  intro s f hinv
  unfold step
  cases hm : move s with
  | next u => nofun
  | fault f' => exact absurd hm (noFault_move hinv f')
  | refused q => nofun

/-! ### What only grows -/

/-- Parameters and card are the same, and wire, trace and outcomes have only grown. -/
structure Grows (s t : State) : Prop where
  cfg : t.cfg = s.cfg
  card : t.card = s.card
  trace : s.trace <+: t.trace
  wire : s.wire <+: t.wire
  outcomes : s.outcomes <+: t.outcomes

theorem Grows.trans {s t u : State} (h : Grows s t) (h' : Grows t u) : Grows s u :=
  ⟨h'.cfg.trans h.cfg, h'.card.trans h.card, h.trace.trans h'.trace, h.wire.trans h'.wire, h.outcomes.trans h'.outcomes⟩

/-- R40, R41: an elementary move appends one event at most, and the engine's step one exchange. -/
theorem micro_grows {cfgw : Prop} {st : Nat → Prop} {s t : State} (hm : Micro cfgw st s t) : Grows s t := by
  cases hm <;> exact ⟨rfl, rfl, by simp, by simp, by simp⟩

theorem micro_keeps_host {cfgw : Prop} {st : Nat → Prop} {s t : State} (hm : Micro cfgw st s t) : t.host = s.host := by
  cases hm <;> rfl

theorem leaves_grows {cfgw : Prop} {st : Nat → Prop} {s u t : State} (hu : Micros cfgw st s u) (ht : Leaves u t) :
    Grows s t ∧ t.host = s.host := by
  have hgrow : Grows s u :=
    hu.keeps (P := Grows s) (fun _ _ hm h => h.trans (micro_grows hm)) ⟨rfl, rfl, by simp, by simp, by simp⟩
  have hhost : u.host = s.host := hu.same (·.host) fun _ _ hm => micro_keeps_host hm
  obtain ⟨r, rfl⟩ | ⟨fs, -, -, rfl⟩ := ht
  · exact ⟨hgrow.trans ⟨rfl, rfl, by simp, by simp, by simp⟩, hhost⟩
  · exact ⟨hgrow.trans ⟨rfl, rfl, by simp, by simp, by simp⟩, hhost⟩

theorem reschedule_grows (v : State) : Grows v (reschedule v) := ⟨by simp, by simp, by simp, by simp, by simp⟩

/-- Settles O42: each of the four things a step can do only appends, and only the host's move takes an operation. -/
theorem stepOnlyAppends : Obligations.StepOnlyAppends := by
  intro s t hstep
  obtain ⟨v, rfl, hmove⟩ := step_inversion hstep
  have hgrow : Grows s v ∧ (v.host = s.host ∨ ∃ r, s.host = r :: v.host) := by
    obtain ⟨hbusy, rfl⟩ | ⟨-, u, hu, hl⟩ | ⟨-, r, rest, u, hhost, hu, hl⟩ | ⟨-, -, rfl⟩ := hmove
    · exact ⟨micro_grows (.engine (cfgw := True) (st := fun _ => True) s hbusy), .inl rfl⟩
    · obtain ⟨⟨hcfg, hcard, htrace, hwire, houtcomes⟩, hsame⟩ := leaves_grows hu hl
      exact ⟨⟨hcfg, hcard, htrace, hwire, houtcomes⟩, .inl hsame⟩
    · obtain ⟨⟨hcfg, hcard, htrace, hwire, houtcomes⟩, hsame⟩ := leaves_grows hu hl
      exact ⟨⟨hcfg, hcard, htrace, hwire, houtcomes⟩, .inr ⟨r, hsame ▸ hhost⟩⟩
    · exact ⟨⟨rfl, rfl, by simp, by simp, by simp⟩, .inl rfl⟩
  obtain ⟨hcfg, hcard, htrace, hwire, houtcomes⟩ := hgrow.1.trans (reschedule_grows v)
  exact ⟨hcfg, hcard, htrace, hwire, houtcomes, by simpa using hgrow.2⟩

/-! ### A scripted card -/

/-- The card is scripted, and the `n`-th exchange of the wire received the script's `n`-th byte (R112). -/
structure Scripted (bytes : List Byte) (after : Byte) (s : State) : Prop where
  card : s.card = .script bytes after
  answers : ∀ n x, s.wire[n]? = some x → x.miso = bytes.getD n after

/-- The engine's exchange receives the byte whose number is the wire's length. -/
theorem scripted_engineStep {bytes : List Byte} {after : Byte} {s : State} (h : Scripted bytes after s) :
    Scripted bytes after (engineStep s) where
  card := h.card
  answers n x hx := by
    rw [engineStep_wire, List.getElem?_append] at hx
    split at hx
    · exact h.answers n x hx
    · next hn =>
      obtain ⟨h0, rfl⟩ := List.getElem?_eq_some_iff.mp hx
      have : n = s.wire.length := by simp at h0; omega
      simp [h.card, Card.answer, this]

theorem micro_keeps_scripted {cfgw : Prop} {st : Nat → Prop} {bytes : List Byte} {after : Byte} {s t : State}
    (hm : Micro cfgw st s t) (h : Scripted bytes after s) : Scripted bytes after t := by
  cases hm with
  | engine hb => exact scripted_engineStep h
  | tx | rx | status | cs | div | store | draw => exact ⟨h.card, h.answers⟩

/-- Settles O50: only the engine's step adds to the wire, and every way to leave an operation keeps wire and card. -/
theorem scriptedCardInOrder : Obligations.ScriptedCardInOrder := by
  intro s t bytes after hcard hanswers hstep
  have hs : Scripted bytes after s := ⟨hcard, hanswers⟩
  have hleaves : ∀ {u v : State}, Scripted bytes after u → Leaves u v → Scripted bytes after v := by
    rintro u v h (⟨r, rfl⟩ | ⟨fs, -, -, rfl⟩) <;> exact ⟨h.card, h.answers⟩
  obtain ⟨v, rfl, hmove⟩ := step_inversion hstep
  have hv : Scripted bytes after v := by
    obtain ⟨-, rfl⟩ | ⟨-, u, hu, hl⟩ | ⟨-, r, rest, u, -, hu, hl⟩ | ⟨-, -, rfl⟩ := hmove
    · exact scripted_engineStep hs
    · exact hleaves (hu.keeps (fun _ _ hm => micro_keeps_scripted hm) ⟨hcard, hanswers⟩) hl
    · exact hleaves (hu.keeps (fun _ _ hm => micro_keeps_scripted hm) ⟨hcard, hanswers⟩) hl
    · exact hs
  simpa using hv.answers

end Sys2Proof.Proofs
end

section
/-! SUPPORT. The proofs of what an operation leaves unchanged: memory, configuration, wire and latch. -/

namespace Sys2Proof.Proofs

open Sys2Proof.Machine

variable {cfgw : Prop} {st : Nat → Prop} {s t u : State}

/-! ### Memory -/

/-- R66: an elementary move stores only where it may. -/
theorem micro_keeps_byte {a : Nat} (ha : ¬ st a) (hm : Micro cfgw st s t) : t.mem.read a = s.mem.read a := by
  cases hm with
  | store b v hb => exact Memory.read_write_other _ v fun he => ha (he ▸ hb)
  | tx | rx | status | cs | div | engine | draw => rfl

theorem leaves_mem (h : Leaves u t) : t.mem = u.mem := by
  obtain ⟨r, rfl⟩ | ⟨fs, -, -, rfl⟩ := h <;> rfl

/-- Settles O39: every elementary move of the operation keeps a byte outside the buffer. -/
theorem memoryFrame : Obligations.MemoryFrame := by
  intro i s t h a ha
  obtain ⟨-, u, hu, hl⟩ := exec_inversion i h
  rw [leaves_mem hl]
  exact hu.same (·.mem.read a) fun _ _ hm => micro_keeps_byte ha hm

/-! ### Configuration -/

/-- `t` has the parameters, chip select, divisor and CS and DIV writes of `s`. -/
structure SameConfig (s t : State) : Prop where
  cfg : t.cfg = s.cfg
  cs : t.cs = s.cs
  div : t.div = s.div
  writes : t.trace.filterMap Event.configWrite = s.trace.filterMap Event.configWrite

theorem SameConfig.trans (h : SameConfig s t) (h' : SameConfig t u) : SameConfig s u :=
  ⟨h'.cfg.trans h.cfg, h'.cs.trans h.cs, h'.div.trans h.div, h'.writes.trans h.writes⟩

/-- R117: an elementary move that may not write CS or DIV does not. -/
theorem micro_sameConfig (hc : ¬ cfgw) (ha : s.cfg.AtSpec) (hm : Micro cfgw st s t) : SameConfig s t := by
  cases hm with
  | tx v hb => exact ⟨rfl, rfl, rfl, by simp [Event.configWrite, Config.offTx_atSpec ha]⟩
  | cs v h hb => exact absurd h hc
  | div v h hb => exact absurd h hc
  | rx | status | engine => exact ⟨rfl, rfl, rfl, by simp [Event.configWrite]⟩
  | store | draw => exact ⟨rfl, rfl, rfl, rfl⟩

theorem micros_sameConfig (hc : ¬ cfgw) (ha : s.cfg.AtSpec) (hu : Micros cfgw st s u) : SameConfig s u :=
  hu.keeps (P := SameConfig s) (fun _ _ hm h => h.trans (micro_sameConfig hc (h.cfg.symm ▸ ha) hm)) ⟨rfl, rfl, rfl, rfl⟩

theorem leaves_sameConfig (h : Leaves u t) : SameConfig u t := by
  obtain ⟨r, rfl⟩ | ⟨fs, -, -, rfl⟩ := h <;> exact ⟨rfl, rfl, rfl, rfl⟩

/-- Settles O40: none of the operation's elementary moves may write CS or DIV. -/
theorem configFrame : Obligations.ConfigFrame := by
  intro i s t hspec h hw
  obtain ⟨-, u, hu, hl⟩ := exec_inversion i h
  have hsame := (micros_sameConfig (by simp [hw]) hspec hu).trans (leaves_sameConfig hl)
  exact ⟨hsame.cs, hsame.div, hsame.writes⟩

/-! ### Wire, latch and flags -/

/-- `t` has the wire, the latch, the memory and the sequencer of `s`. -/
structure SameStore (s t : State) : Prop where
  wire : t.wire = s.wire
  rxLatch : t.rxLatch = s.rxLatch
  mem : t.mem = s.mem
  seq : t.seq = s.seq

/-- `t` has the byte to send and the two flags of `s` as well. -/
structure SameData (s t : State) : Prop extends SameStore s t where
  txData : t.txData = s.txData
  busy : t.busy = s.busy
  rxValid : t.rxValid = s.rxValid

theorem wrTx_sameStore (v : Word) (s : State) : (wrTx v s).Ends (SameStore s) := by
  cases h : s.busy
  · rw [wrTx_idle v h]; exact ⟨rfl, rfl, rfl, rfl⟩
  · rw [wrTx_busy v h]; trivial

theorem rdRx_sameData (s : State) : (rdRx s).Ends (SameData s) := by
  cases h : s.rxValid
  · rw [rdRx_invalid h]; exact ⟨⟨rfl, rfl, rfl, rfl⟩, rfl, rfl, rfl⟩
  · rw [rdRx_valid h]; exact ⟨⟨rfl, rfl, rfl, rfl⟩, rfl, rfl, rfl⟩

theorem wrCs_sameData (v : Word) (s : State) : (wrCs v s).Ends (SameData s) := by
  unfold wrCs
  split
  · trivial
  · split
    · trivial
    · exact ⟨⟨rfl, rfl, rfl, rfl⟩, rfl, rfl, rfl⟩

theorem wrDiv_sameData (v : Word) (s : State) : (wrDiv v s).Ends (SameData s) := by
  unfold wrDiv
  split
  · trivial
  · exact ⟨⟨rfl, rfl, rfl, rfl⟩, rfl, rfl, rfl⟩

theorem setClock_sameData (hz : Nat) (s : State) : (setClock hz s).Ends (SameData s) := by
  unfold setClock
  split
  · exact wrDiv_sameData _ s
  · trivial

/-- Where an invoked sequence ends, the answer is all that is added. -/
theorem answered_of_invoke {α : Type} {reply : α → Reply} {body : State → Run α} {P : State → Prop}
    (hb : (body s).Ends P) (h : invoke reply body s = .next t) : s.seq = [] ∧ ∃ u r, P u ∧ t = u.answer r := by
  obtain ⟨hseq, ⟨a, u, he, rfl⟩ | ⟨f, u, he, rfl⟩⟩ := invoke_eq_next.mp h <;> rw [he] at hb
  · exact ⟨hseq, u, _, hb, rfl⟩
  · exact ⟨hseq, u, _, hb, rfl⟩

/-- Every part of the frame, of an operation that leaves all of it. -/
theorem frame_of_sameData {α : Type} {reply : α → Reply} {body : State → Run α} {p : Prop}
    (hb : (body s).Ends (SameData s)) (h : invoke reply body s = .next t) :
    t.wire = s.wire ∧ t.rxLatch = s.rxLatch ∧ t.mem = s.mem ∧ t.seq = [] ∧
      (p → t.txData = s.txData ∧ t.busy = s.busy ∧ t.rxValid = s.rxValid) := by
  obtain ⟨hseq, u, r, hu, rfl⟩ := answered_of_invoke hb h
  exact ⟨hu.wire, hu.rxLatch, hu.mem, hu.seq.trans hseq, fun _ => ⟨hu.txData, hu.busy, hu.rxValid⟩⟩

/-- Settles O41: register reads, configuration writes and classifications leave all of it, WR_TX all but the byte to
send and the flags. -/
theorem registerAccessFrame : Obligations.RegisterAccessFrame := by
  intro i s t h hx
  have hsame : SameData s s := ⟨⟨rfl, rfl, rfl, rfl⟩, rfl, rfl, rfl⟩
  cases i with
  | wrTx v =>
    obtain ⟨hseq, u, r, hu, rfl⟩ := answered_of_invoke (wrTx_sameStore v s) h
    exact ⟨hu.wire, hu.rxLatch, hu.mem, hu.seq.trans hseq, fun hv => absurd rfl (hv v)⟩
  | rdRx => exact frame_of_sameData (rdRx_sameData s) h
  | rdStatus => exact frame_of_sameData (body := rdStatus) ⟨⟨rfl, rfl, rfl, rfl⟩, rfl, rfl, rfl⟩ h
  | wrCs v => exact frame_of_sameData (wrCs_sameData v s) h
  | wrDiv v => exact frame_of_sameData (wrDiv_sameData v s) h
  | setCs level => exact frame_of_sameData (wrCs_sameData (csWord level) s) h
  | setClock hz => exact frame_of_sameData (setClock_sameData hz s) h
  | respBusy => exact frame_of_sameData (body := classifyReceived Param.busyByte) hsame h
  | respIdle => exact frame_of_sameData (body := classifyReceived Param.idleByte) hsame h
  | respReady => exact frame_of_sameData (body := classifyReceived Param.readyByte) hsame h
  | transfer | sendCommand | getResult | expectIdle | initPoll | expectReady | init => cases hx
  | readBlock | cmdReset | cmdInit | cmdSetBlockLen | cmdReadBlock | dummy => cases hx

end Sys2Proof.Proofs
end

section
/-! SUPPORT. Two runs of one operation side by side: a relation between states that the register accesses, TRANSFER, a
store and an answer keep is kept by every operation. With it, what the divisor has no effect on, that an operation ends
with nothing in flight, and where INIT leaves chip select and divisor. -/

namespace Sys2Proof.Proofs

open Sys2Proof.Machine

/-! ### Related runs -/

/-- The two sequences end in the same way, with the same value, failure or refusal, in related states. -/
inductive RunRel (R : State → State → Prop) {α : Type} : Run α → Run α → Prop where
  | ret {s t : State} (a : α) (h : R s t) : RunRel R (.ret a s) (.ret a t)
  | raised {s t : State} (f : Failure) (h : R s t) : RunRel R (.raised f s) (.raised f t)
  | refused (q : Refusal) : RunRel R (.refused q) (.refused q)

/-- The two outcomes are of one kind, with the same reason or in related states. -/
inductive OutRel (R : State → State → Prop) :
    Host.Outcome State Fault Refusal → Host.Outcome State Fault Refusal → Prop where
  | next {s t : State} (h : R s t) : OutRel R (.next s) (.next t)
  | fault (f : Fault) : OutRel R (.fault f) (.fault f)
  | refused (q : Refusal) : OutRel R (.refused q) (.refused q)

theorem RunRel.bind {R : State → State → Prop} {α β : Type} {x y : Run α} {k l : α → State → Run β}
    (hx : RunRel R x y) (hk : ∀ a s t, R s t → RunRel R (k a s) (l a t)) : RunRel R (x.bind k) (y.bind l) := by
  cases hx with
  | ret a h => exact hk a _ _ h
  | raised f h => exact .raised f h
  | refused q => exact .refused q

/-- What related states have to agree in, and what has to lead from related states to related ones. -/
structure Uniform (R : State → State → Prop) : Prop where
  cfg : ∀ {s t}, R s t → t.cfg = s.cfg
  seq : ∀ {s t}, R s t → t.seq = s.seq
  transfer : ∀ {s t}, R s t → ∀ b, RunRel R (transfer b s) (transfer b t)
  rdRx : ∀ {s t}, R s t → RunRel R (rdRx s) (rdRx t)
  rdStatus : ∀ {s t}, R s t → RunRel R (rdStatus s) (rdStatus t)
  wrCs : ∀ {s t}, R s t → ∀ v, RunRel R (wrCs v s) (wrCs v t)
  wrDiv : ∀ {s t}, R s t → ∀ v, RunRel R (wrDiv v s) (wrDiv v t)
  store : ∀ {s t}, R s t → ∀ a b, R { s with mem := s.mem.write a b } { t with mem := t.mem.write a b }
  answer : ∀ {s t}, R s t → ∀ r, R (s.answer r) (t.answer r)
  loopHead : ∀ {s t}, R s t → ∀ m, R { s with seq := [.initPoll m] } { t with seq := [.initPoll m] }

namespace Uniform

variable {R : State → State → Prop} {s t : State} (hR : Uniform R)
include hR

theorem transferAll (h : R s t) (bs : List Byte) : RunRel R (transferAll bs s) (transferAll bs t) := by
  induction bs generalizing s t with
  | nil => exact .ret () h
  | cons b bs ih => exact (hR.transfer h b).bind fun _ _ _ hu => ih hu

theorem sendCommand (h : R s t) (idx : Nat) (p : Word) : RunRel R (sendCommand idx p s) (sendCommand idx p t) := by
  unfold Machine.sendCommand
  rw [hR.cfg h]
  split
  · exact hR.transferAll h _
  · exact .refused _

/-- A frame whose index and parameter the configuration gives (R128 to R131). -/
theorem sendFrame (h : R s t) (idx : Config → Nat) (p : Config → Word) :
    RunRel R (Machine.sendCommand (idx s.cfg) (p s.cfg) s) (Machine.sendCommand (idx t.cfg) (p t.cfg) t) := by
  rw [hR.cfg h]
  exact hR.sendCommand h _ _

theorem transferDummy (h : R s t) : RunRel R (transferDummy s) (transferDummy t) := by
  unfold Machine.transferDummy
  rw [hR.cfg h]
  exact hR.transfer h _

theorem pollResult (h : R s t) (n : Nat) : RunRel R (pollResult n s) (pollResult n t) := by
  induction n generalizing s t with
  | zero => exact .ret _ h
  | succ n ih =>
    unfold Machine.pollResult
    refine (hR.transferDummy h).bind fun r u v hu => ?_
    split
    · exact ih hu
    · exact .ret _ hu

theorem getResult (h : R s t) : RunRel R (getResult s) (getResult t) := by
  unfold Machine.getResult
  rw [hR.cfg h]
  exact hR.pollResult h _

theorem expectIdle (h : R s t) : RunRel R (expectIdle s) (expectIdle t) := by
  unfold Machine.expectIdle
  refine (hR.sendFrame h (·.cmdReset) fun _ => 0#32).bind fun _ _ _ hu => (hR.getResult hu).bind fun r _ _ hv => ?_
  split
  · exact .ret _ hv
  · exact .raised _ hv

theorem expectReady (h : R s t) : RunRel R (expectReady s) (expectReady t) := by
  unfold Machine.expectReady
  refine (hR.sendFrame h (·.cmdSetBlockLen) (·.blockSize)).bind fun _ _ _ hu =>
    (hR.getResult hu).bind fun r _ _ hv => ?_
  split
  · exact .ret _ hv
  · exact .raised _ hv

theorem pollOnce (h : R s t) (m : Nat) : RunRel R (pollOnce m s) (pollOnce m t) := by
  unfold Machine.pollOnce
  rw [hR.cfg h]
  split
  · exact .raised _ h
  · refine (hR.sendFrame h (·.cmdInit) fun _ => 0#32).bind fun _ _ _ hu => (hR.getResult hu).bind fun r _ _ hv => ?_
    split
    · exact .ret _ hv
    · split
      · exact .ret _ hv
      · exact .raised _ hv

theorem setClock (h : R s t) (hz : Nat) : RunRel R (setClock hz s) (setClock hz t) := by
  unfold Machine.setClock
  rw [hR.cfg h]
  split
  · exact hR.wrDiv h _
  · exact .refused _

theorem initHead (h : R s t) : RunRel R (initHead s) (initHead t) := by
  unfold Machine.initHead
  rw [hR.cfg h]
  refine (hR.setClock h _).bind fun _ u1 v1 h1 => ?_
  rw [hR.cfg h1]
  refine (hR.wrCs h1 _).bind fun _ u2 v2 h2 => ?_
  rw [hR.cfg h2]
  refine (hR.transferAll h2 _).bind fun _ u3 v3 h3 => ?_
  rw [hR.cfg h3]
  exact (hR.wrCs h3 _).bind fun _ _ _ h4 => hR.expectIdle h4

theorem initTail (h : R s t) : RunRel R (initTail s) (initTail t) := by
  unfold Machine.initTail
  refine (hR.expectReady h).bind fun _ u v hu => ?_
  rw [hR.cfg hu]
  exact hR.setClock hu _

theorem readBytes (h : R s t) (n a : Nat) : RunRel R (readBytes n a s) (readBytes n a t) := by
  induction n generalizing a s t with
  | zero => exact .ret () h
  | succ n ih =>
    unfold Machine.readBytes
    exact (hR.transferDummy h).bind fun b _ _ hu => ih (hR.store hu a b) (a + 1)

theorem readBlock (h : R s t) (addr : Word) (dest : Nat) :
    RunRel R (readBlock addr dest s) (readBlock addr dest t) := by
  unfold Machine.readBlock
  rw [hR.cfg h]
  split
  · refine (hR.sendFrame h (·.cmdReadBlock) fun _ => addr).bind fun _ _ _ hu =>
      (hR.getResult hu).bind fun _ u v hv => ?_
    rw [hR.cfg hv]
    refine (hR.readBytes hv _ _).bind fun _ u' v' hw => ?_
    rw [hR.cfg hw]
    exact hR.transferAll hw _
  · exact .refused _

theorem whenIdle (h : R s t) {o p : Host.Outcome State Fault Refusal} (ho : OutRel R o p) :
    OutRel R (whenIdle s o) (whenIdle t p) := by
  unfold Machine.whenIdle
  rw [hR.seq h]
  split
  · exact ho
  · exact .refused _

theorem invoke {α : Type} {body : State → Run α} (reply : α → Reply) (h : R s t) (hb : RunRel R (body s) (body t)) :
    OutRel R (invoke reply body s) (invoke reply body t) := by
  unfold Machine.invoke
  refine hR.whenIdle h ?_
  generalize body s = x at hb ⊢
  generalize body t = y at hb ⊢
  cases hb with
  | ret a hu => exact .next (hR.answer hu _)
  | raised f hu => exact .next (hR.answer hu _)
  | refused q => exact .refused q

theorem endPollAlone {x y : Run PollEnd} (hx : RunRel R x y) : OutRel R (endPollAlone x) (endPollAlone y) := by
  cases hx with
  | ret e hu =>
    cases e with
    | ready => exact .next (hR.answer hu _)
    | again m => exact .next (hR.loopHead hu m)
  | raised f hu => exact .next (hR.answer hu _)
  | refused q => exact .refused q

theorem endInit {x y : Run Unit} (hx : RunRel R x y) : OutRel R (endInit x) (endInit y) := by
  cases hx with
  | ret _ hu => exact .next (hR.answer hu _)
  | raised f hu => exact .next (hR.answer hu _)
  | refused q => exact .refused q

theorem execInit (hinit : ∀ {u v}, R u v → ∀ m,
      R { u with seq := [.initPoll m, .init] } { v with seq := [.initPoll m, .init] })
    (h : R s t) : OutRel R (execInit s) (execInit t) := by
  refine hR.whenIdle h ?_
  have hx := (hR.initHead h).bind fun _ _ _ hu => hR.pollOnce hu 0
  generalize Run.bind (Machine.initHead s) _ = x at hx ⊢
  generalize Run.bind (Machine.initHead t) _ = y at hx ⊢
  cases hx with
  | ret e hu =>
    cases e with
    | ready => exact hR.endInit (hR.initTail hu)
    | again m => exact .next (hinit hu m)
  | raised f hu => exact .next (hR.answer hu _)
  | refused q => exact .refused q

/-- Every operation keeps the relation, WR_TX and INIT where their own moves do. -/
theorem exec (i : Instr) (h : R s t) (htx : ∀ v, i = .wrTx v → RunRel R (wrTx v s) (wrTx v t))
    (hinit : i = .init → ∀ {u v}, R u v → ∀ m,
      R { u with seq := [.initPoll m, .init] } { v with seq := [.initPoll m, .init] }) :
    OutRel R (exec i s) (exec i t) := by
  cases i with
  | wrTx v => exact hR.invoke _ h (htx v rfl)
  | rdRx => exact hR.invoke _ h (hR.rdRx h)
  | rdStatus => exact hR.invoke _ h (hR.rdStatus h)
  | wrCs v => exact hR.invoke _ h (hR.wrCs h v)
  | wrDiv v => exact hR.invoke _ h (hR.wrDiv h v)
  | setCs level => exact hR.invoke _ h (hR.wrCs h _)
  | setClock hz => exact hR.invoke _ h (hR.setClock h hz)
  | transfer b => exact hR.invoke _ h (hR.transfer h b)
  | sendCommand idx p => exact hR.invoke _ h (hR.sendCommand h idx p)
  | getResult => exact hR.invoke _ h (hR.getResult h)
  | expectIdle => exact hR.invoke _ h (hR.expectIdle h)
  | initPoll => exact hR.whenIdle h (hR.endPollAlone (hR.pollOnce h 0))
  | expectReady => exact hR.invoke _ h (hR.expectReady h)
  | init => exact hR.execInit (hinit rfl) h
  | readBlock addr dest => exact hR.invoke _ h (hR.readBlock h addr dest)
  | cmdReset => exact hR.invoke _ h (hR.sendFrame h (·.cmdReset) fun _ => 0#32)
  | cmdInit => exact hR.invoke _ h (hR.sendFrame h (·.cmdInit) fun _ => 0#32)
  | cmdSetBlockLen => exact hR.invoke _ h (hR.sendFrame h (·.cmdSetBlockLen) (·.blockSize))
  | cmdReadBlock addr => exact hR.invoke _ h (hR.sendFrame h (·.cmdReadBlock) fun _ => addr)
  | dummy => exact hR.invoke _ h (hR.transferDummy h)
  | respBusy | respIdle | respReady => exact hR.invoke (body := classifyReceived _) _ h (.ret _ h)

end Uniform

/-! ### The divisor -/

/-- `t` is `s` but for the divisor. -/
def DivisorApart (s t : State) : Prop := ∃ d, t = { s with div := d }

theorem transfer_divisorApart {s t : State} (h : DivisorApart s t) (b : Byte) :
    RunRel DivisorApart (transfer b s) (transfer b t) := by
  obtain ⟨d, rfl⟩ := h
  rcases Bool.eq_false_or_eq_true s.busy with hb | hb
  · rw [transfer, transfer, wrTx_busy _ hb, wrTx_busy (s := { s with div := d }) _ hb]
    exact .refused _
  · by_cases hc : ∀ cap, s.cfg.transferPollCap = some cap → Config.freeWait s.draws < s.cfg.timeoutReads cap
    · rw [transfer_exact b hb hc, transfer_exact (s := { s with div := d }) b hb hc]
      exact .ret _ ⟨d, rfl⟩
    · push Not at hc
      obtain ⟨cap, hcap, hw⟩ := hc
      rw [transfer_capped b hb hcap hw, transfer_capped (s := { s with div := d }) b hb hcap hw]
      exact .raised _ ⟨d, rfl⟩

theorem wrTx_divisorApart {s t : State} (h : DivisorApart s t) (v : Word) :
    RunRel DivisorApart (wrTx v s) (wrTx v t) := by
  obtain ⟨d, rfl⟩ := h
  unfold wrTx
  dsimp only
  split
  · exact .refused _
  · exact .ret _ ⟨d, rfl⟩

/-- R94 (D12): nothing reads the divisor. -/
theorem divisorApart_uniform : Uniform DivisorApart where
  cfg := by rintro s _ ⟨d, rfl⟩; rfl
  seq := by rintro s _ ⟨d, rfl⟩; rfl
  transfer := transfer_divisorApart
  rdRx := by
    rintro s _ ⟨d, rfl⟩
    unfold rdRx
    dsimp only
    split
    · exact .ret _ ⟨d, rfl⟩
    · exact .ret _ ⟨d, rfl⟩
  rdStatus := by rintro s _ ⟨d, rfl⟩; exact .ret _ ⟨d, rfl⟩
  wrCs := by
    rintro s _ ⟨d, rfl⟩ v
    unfold wrCs
    dsimp only
    split
    · exact .refused _
    · split
      · exact .refused _
      · exact .ret _ ⟨d, rfl⟩
  wrDiv := by
    rintro s _ ⟨d, rfl⟩ v
    unfold wrDiv
    dsimp only
    split
    · exact .refused _
    · exact .ret _ ⟨v, rfl⟩
  store := by rintro s _ ⟨d, rfl⟩ a b; exact ⟨d, rfl⟩
  answer := by rintro s _ ⟨d, rfl⟩ r; exact ⟨d, rfl⟩
  loopHead := by rintro s _ ⟨d, rfl⟩ m; exact ⟨d, rfl⟩

/-- Settles O43: states apart in the divisor lead to states apart in the divisor. -/
theorem divisorHasNoEffect : Obligations.DivisorHasNoEffect := by
  intro i s t d h
  have hs : DivisorApart s { s with div := d } := ⟨d, rfl⟩
  have hout := divisorApart_uniform.exec i hs (fun v _ => wrTx_divisorApart hs v)
    (by rintro - u _ ⟨d', rfl⟩ m; exact ⟨d', rfl⟩)
  rw [h] at hout
  generalize exec i { s with div := d } = o at hout ⊢
  cases hout with
  | next ht =>
    obtain ⟨d', rfl⟩ := ht
    exact ⟨_, rfl, rfl⟩

/-! ### What every state of a run satisfies -/

/-- A state beside itself, with a property. -/
def Kept (P : State → Prop) (s t : State) : Prop := t = s ∧ P s

theorem runRel_kept {P : State → Prop} {α : Type} {x : Run α} (h : x.Ends P) : RunRel (Kept P) x x := by
  cases x with
  | ret a u => exact .ret a ⟨rfl, h⟩
  | raised f u => exact .raised f ⟨rfl, h⟩
  | refused q => exact .refused q

theorem of_outRel_kept {P : State → Prop} {o : Host.Outcome State Fault Refusal} {t : State}
    (h : OutRel (Kept P) o o) (ho : o = .next t) : P t := by
  subst ho
  cases h with
  | next h => exact h.2

/-- No cap bounds the status polls and no exchange is in flight. -/
structure IdleUncapped (s : State) : Prop where
  busy : s.busy = false
  cap : s.cfg.transferPollCap = none

theorem idleUncapped_uniform : Uniform (Kept IdleUncapped) where
  cfg := by rintro _ s ⟨rfl, -⟩; rfl
  seq := by rintro _ s ⟨rfl, -⟩; rfl
  transfer := by
    rintro _ s ⟨rfl, h⟩ b
    refine runRel_kept ?_
    rw [transfer_exact b h.busy (by simp [h.cap])]
    exact ⟨rfl, h.cap⟩
  rdRx := by
    rintro _ s ⟨rfl, h⟩
    refine runRel_kept ?_
    cases hv : s.rxValid
    · rw [rdRx_invalid hv]; exact ⟨h.busy, h.cap⟩
    · rw [rdRx_valid hv]; exact ⟨h.busy, h.cap⟩
  rdStatus := by rintro _ s ⟨rfl, h⟩; exact .ret _ ⟨rfl, h.busy, h.cap⟩
  wrCs := by
    rintro _ s ⟨rfl, h⟩ v
    refine runRel_kept ?_
    cases hv : Param.csLegal v
    · simp [wrCs, hv, Run.Ends]
    · rw [wrCs_idle hv h.busy]; exact ⟨h.busy, h.cap⟩
  wrDiv := by rintro _ s ⟨rfl, h⟩ v; rw [wrDiv_idle v h.busy]; exact .ret _ ⟨rfl, h.busy, h.cap⟩
  store := by rintro _ s ⟨rfl, h⟩ a b; exact ⟨rfl, h.busy, h.cap⟩
  answer := by rintro _ s ⟨rfl, h⟩ r; exact ⟨rfl, h.busy, h.cap⟩
  loopHead := by rintro _ s ⟨rfl, h⟩ m; exact ⟨rfl, h.busy, h.cap⟩

/-- Settles O44: without a cap every TRANSFER runs to its end, and nothing but WR_TX leaves an exchange in flight. -/
theorem returnsWithNothingInFlight : Obligations.ReturnsWithNothingInFlight := by
  intro i s t h hbusy hcap hi
  have hs : Kept IdleUncapped s s := ⟨rfl, hbusy, hcap⟩
  have hout := idleUncapped_uniform.exec i hs (fun v hv => absurd hv (hi v))
    (by rintro - u _ ⟨rfl, hu⟩ m; exact ⟨rfl, hu.busy, hu.cap⟩)
  exact (of_outRel_kept hout h).busy

/-! ### INIT in progress -/

/-- INIT is not in progress. -/
def OutsideInit (s : State) : Prop := Frame.init ∉ s.seq

theorem ends_outsideInit {α : Type} {x : Run α} {s : State} (h : OutsideInit s)
    (hx : x.Ends (Micros True (fun _ => True) s)) : x.Ends OutsideInit :=
  hx.mono fun _ hu => hu.keeps (fun _ _ hm h => by rw [OutsideInit, micro_keeps_seq hm]; exact h) h

theorem outsideInit_uniform : Uniform (Kept OutsideInit) where
  cfg := by rintro _ s ⟨rfl, -⟩; rfl
  seq := by rintro _ s ⟨rfl, -⟩; rfl
  transfer := by rintro _ s ⟨rfl, h⟩ b; exact runRel_kept (ends_outsideInit h (transfer_micros b s))
  rdRx := by rintro _ s ⟨rfl, h⟩; exact runRel_kept (ends_outsideInit h (rdRx_micros s))
  rdStatus := by rintro _ s ⟨rfl, h⟩; exact runRel_kept (ends_outsideInit h (rdStatus_micros s))
  wrCs := by rintro _ s ⟨rfl, h⟩ v; exact runRel_kept (ends_outsideInit h (wrCs_micros trivial v s))
  wrDiv := by rintro _ s ⟨rfl, h⟩ v; exact runRel_kept (ends_outsideInit h (wrDiv_micros trivial v s))
  store := by rintro _ s ⟨rfl, h⟩ a b; exact ⟨rfl, h⟩
  answer := by rintro _ s ⟨rfl, h⟩ r; exact ⟨rfl, h⟩
  loopHead := by rintro _ s ⟨rfl, -⟩ m; exact ⟨rfl, by simp [OutsideInit]⟩

/-- Only INIT leaves INIT in progress. -/
theorem exec_outsideInit {i : Instr} {s t : State} (hi : i ≠ .init) (h : exec i s = .next t) : OutsideInit t := by
  have hs : Kept OutsideInit s s := ⟨rfl, by simp [OutsideInit, (exec_inversion i h).1]⟩
  exact of_outRel_kept (outsideInit_uniform.exec i hs (fun v _ => runRel_kept (ends_outsideInit hs.2 (wrTx_micros v s)))
    fun he => absurd he hi) h

end Sys2Proof.Proofs
end

section
/-! SUPPORT. The proof that INIT stands at its step 5's loop head with chip select asserted and the slow divisor
(44_driver_sequences.md R163, 70_reset_and_hazards.md R225). -/

namespace Sys2Proof.Proofs

open Sys2Proof.Machine

variable {s t : State}

/-- Chip select is asserted and the divisor is that of INIT_HZ. -/
def Slow (s : State) : Prop := s.cs = 1#1 ∧ s.div = 61#32

/-! ### Steps 1 to 4 -/

theorem of_ends_ret {α : Type} {P : State → Prop} {x : Run α} {a : α} (h : x.Ends P) (hx : x = .ret a t) : P t := by
  subst hx; exact h

theorem wrCs_ret {v : Word} {a : Unit} (h : wrCs v s = .ret a t) :
    t.cs = csLevel v ∧ t.div = s.div ∧ t.cfg = s.cfg := by
  unfold wrCs at h
  split_ifs at h
  cases h
  exact ⟨rfl, rfl, rfl⟩

theorem setClock_ret {hz : Nat} {a : Unit} (h : setClock hz s = .ret a t) :
    t.div = divisor s.cfg hz ∧ t.cfg = s.cfg := by
  unfold setClock wrDiv at h
  split_ifs at h
  cases h
  exact ⟨rfl, rfl⟩

/-- R160 to R164: step 1 sets the divisor, step 3 asserts chip select, and no other move of steps 1 to 4 writes either
after that. -/
theorem initHead_ret_slow {a : Unit} (ha : s.cfg.AtSpec) (h : initHead s = .ret a t) : Slow t ∧ t.cfg.AtSpec := by
  obtain ⟨_, u1, hclock, h⟩ := bind_eq_ret.mp h
  obtain ⟨_, u2, hoff, h⟩ := bind_eq_ret.mp h
  obtain ⟨_, u3, hpowerup, h⟩ := bind_eq_ret.mp h
  obtain ⟨_, u4, hon, hidle⟩ := bind_eq_ret.mp h
  obtain ⟨hdiv1, hcfg1⟩ := setClock_ret hclock
  obtain ⟨-, hdiv2, hcfg2⟩ := wrCs_ret hoff
  have ha2 : u2.cfg.AtSpec := by rw [hcfg2, hcfg1]; exact ha
  have h3 := micros_sameConfig not_false ha2
    (of_ends_ret (transferAll_micros (cfgw := False) (st := fun _ => False) _ u2) hpowerup)
  obtain ⟨hcs4, hdiv4, hcfg4⟩ := wrCs_ret hon
  have ha4 : u4.cfg.AtSpec := by rw [hcfg4, h3.cfg]; exact ha2
  have h5 := micros_sameConfig not_false ha4
    (of_ends_ret (expectIdle_micros (cfgw := False) (st := fun _ => False) u4) hidle)
  have hslow : Slow t := by
    refine ⟨?_, ?_⟩
    · rw [h5.cs, hcs4, csLevel_csWord, Config.csAssert_atSpec (h3.cfg.symm ▸ ha2)]
    · rw [h5.div, hdiv4, h3.div, hdiv2, hdiv1, divisor_atSpec ha, Config.initHz_atSpec ha]
  exact ⟨hslow, h5.cfg.symm ▸ ha4⟩

/-! ### Step 5 -/

theorem pollOnce_ends_slow (m : Nat) (ha : s.cfg.AtSpec) (h : Slow s) : (pollOnce m s).Ends Slow :=
  (pollOnce_micros (cfgw := False) (st := fun _ => False) m s).mono fun _ hu =>
    have hsame := micros_sameConfig not_false ha hu
    ⟨hsame.cs.trans h.1, hsame.div.trans h.2⟩

/-- INIT stays in progress only where the pass of INIT_POLL's loop ends at the loop head. -/
theorem endPollInInit_slow {x : Run PollEnd} (hslow : ∀ e u, x = .ret e u → Slow u) (hout : x.Ends OutsideInit)
    (h : endPollInInit x = .next t) (hin : Frame.init ∈ t.seq) : Slow t := by
  match x, h with
  | .ret .ready u, h =>
    exact absurd hin (of_outRel_kept (outsideInit_uniform.endInit (runRel_kept
      (ends_outsideInit hout (initTail_micros trivial u)))) h)
  | .ret (.again m) u, h => cases h; exact hslow _ u rfl
  | .raised f u, h => cases h; exact absurd hin hout

theorem exec_init_slow (ha : s.cfg.AtSpec) (h : exec .init s = .next t) (hin : Frame.init ∈ t.seq) : Slow t := by
  obtain ⟨hseq, h⟩ := whenIdle_eq_next.mp h
  have hs : OutsideInit s := by simp [OutsideInit, hseq]
  refine endPollInInit_slow (fun e u hret => ?_) (ends_outsideInit hs
    (micros_bind (initHead_micros trivial s) fun _ u => pollOnce_micros 0 u)) h hin
  obtain ⟨_, v, hhead, hpoll⟩ := bind_eq_ret.mp hret
  obtain ⟨hslow, hspec⟩ := initHead_ret_slow ha hhead
  exact of_ends_ret (pollOnce_ends_slow 0 hspec hslow) hpoll

theorem resume_slow (ha : s.cfg.AtSpec) (hs : Frame.init ∈ s.seq → Slow s) (h : resume s = .next t)
    (hin : Frame.init ∈ t.seq) : Slow t := by
  have hout : ∀ m, (pollOnce m { s with seq := [] }).Ends OutsideInit := fun m =>
    ends_outsideInit (by simp [OutsideInit]) (pollOnce_micros m _)
  unfold resume at h
  split at h
  · next m hseq =>
    exact absurd hin (of_outRel_kept (outsideInit_uniform.endPollAlone (runRel_kept (hout m))) h)
  · next m hseq =>
    have hslow : Slow s := hs (by simp [hseq])
    have hpass : (pollOnce m { s with seq := [] }).Ends Slow := pollOnce_ends_slow m ha hslow
    exact endPollInInit_slow (fun _ _ hret => of_ends_ret hpass hret) (hout m) h hin
  · cases h

/-- The host's next operation leaves INIT in progress only if it is INIT. -/
theorem runRequest_slow {r : Request} (ha : s.cfg.AtSpec) (h : runRequest r s = .next t) (hin : Frame.init ∈ t.seq) :
    Slow t := by
  unfold runRequest at h
  split at h
  · next i hd =>
    by_cases hi : i = .init
    · subst hi; exact exec_init_slow ha h hin
    · exact absurd hin (exec_outsideInit hi h)
  · obtain ⟨hseq, u, r, rfl, rfl⟩ := answered_of_invoke (body := classifyReceived _) (P := (· = s)) rfl h
    simp [hseq] at hin
  · cases h

/-- Settles O49: the engine's move and the end of the run change neither, a pass of INIT_POLL keeps both, and INIT
begins its step 5 with both. -/
theorem initInProgressIsSlow : Obligations.InitInProgressIsSlow := by
  intro s t ha hs hstep hin
  obtain ⟨v, hmove, rfl⟩ := onNext_eq_next.mp hstep
  rw [reschedule_seq] at hin
  rw [reschedule_cs, reschedule_div]
  unfold move at hmove
  split at hmove
  · cases hmove; exact hs hin
  · unfold hostMove at hmove
    split at hmove
    · exact resume_slow ha hs hmove hin
    · next r rest _ _ => exact runRequest_slow (s := { s with host := rest }) ha hmove hin
    · cases hmove; exact hs hin

end Sys2Proof.Proofs
end

section
/-! SUPPORT. The proofs of what 40_register_ops.md says of the register operations, and of the pseudo-operations of
30_encoding.md. -/

namespace Sys2Proof.Proofs

open Sys2Proof.Machine

variable {s : State}

/-! ### Register accesses -/

/-- Settles O9: the write of TX returns, and the byte is the word's low byte. -/
theorem wrTxStartsExchange : Obligations.WrTxStartsExchange := by
  intro s v hspec hseq hbusy
  have hnext : exec (.wrTx v) s = _ := invoke_ret hseq (wrTx_idle v hbusy)
  rw [hnext, Config.offTx_atSpec hspec, lowByte, BitVec.setWidth_eq_extractLsb' (by decide)]
  rfl

/-- Settles O10: the byte is the latch while it is valid, and the free value drawn otherwise. -/
theorem rdRxReturnsLatch : Obligations.RdRxReturnsLatch := by
  intro s hspec hseq
  rcases Bool.eq_false_or_eq_true s.rxValid with hv | hv
  · have hnext : exec .rdRx s = _ := invoke_ret hseq (rdRx_valid hv)
    refine ⟨s.rxLatch, s.draws, fun _ => rfl, ?_⟩
    rw [hnext, Config.offRx_atSpec hspec]
    rfl
  · have hnext : exec .rdRx s = _ := invoke_ret hseq (rdRx_invalid hv)
    refine ⟨Config.freeRx s.draws, s.draws + 1, by simp [hv], ?_⟩
    rw [hnext, Config.offRx_atSpec hspec]
    rfl

theorem exec_rdStatus (hspec : s.cfg.AtSpec) (hseq : s.seq = []) :
    exec .rdStatus s = .next { s with
      trace := s.trace ++ [.regR 0x4c (statusWord s.busy (Config.freeStatus s.draws))]
      outcomes := s.outcomes ++ [.word (statusWord s.busy (Config.freeStatus s.draws))], draws := s.draws + 1 } := by
  have hnext : exec .rdStatus s = _ := invoke_ret (body := rdStatus) hseq rfl
  rw [hnext, Config.offStatus_atSpec hspec]
  rfl

/-- Settles O11: bit 0 of the STATUS word is `COMPLETE`. -/
theorem rdStatusShowsCompletion : Obligations.RdStatusShowsCompletion :=
  fun _ hspec hseq => ⟨_, _, statusWord_bit _ _, exec_rdStatus hspec hseq⟩

/-- WR_DIV with nothing in flight, at R6's offset (R94). -/
theorem wrDiv_atSpec (v : Word) (hspec : s.cfg.AtSpec) (hbusy : s.busy = false) :
    wrDiv v s = .ret () { s.emit (.regW 0x54 v) with div := v } := by
  rw [wrDiv_idle v hbusy, Config.offDiv_atSpec hspec]

/-- The words CS accepts (R93). -/
theorem csLegal_iff (v : Word) : Param.csLegal v = true ↔ v = 0#32 ∨ v = 1#32 := by
  simp [Param.csLegal]

/-- Settles O12: each write returns in the state its rule names. -/
theorem configWritesStore : Obligations.ConfigWritesStore := by
  intro s v hspec hseq hbusy
  refine ⟨fun hv => ?_, ?_⟩
  · have hnext : exec (.wrCs v) s = _ := invoke_ret hseq (wrCs_idle ((csLegal_iff v).mpr hv) hbusy)
    rw [hnext, Config.offCs_atSpec hspec, csLevel, BitVec.setWidth_eq_extractLsb' (by decide)]
    rfl
  · have hnext : exec (.wrDiv v) s = _ := invoke_ret hseq (wrDiv_atSpec v hspec hbusy)
    rw [hnext]
    rfl

/-- Settles O14: the quotient is below 2^32, so the register holds it. -/
theorem setClockWritesDivisor : Obligations.SetClockWritesDivisor := by
  refine ⟨fun s hz hspec hseq hbusy hlow hhigh => ?_, by decide, by decide⟩
  have hfits : 50000000 / hz / 2 - 1 < 2 ^ 32 :=
    calc 50000000 / hz / 2 - 1 ≤ 50000000 / hz := (Nat.sub_le _ _).trans (Nat.div_le_self _ _)
      _ ≤ 50000000 := Nat.div_le_self _ _
      _ < 2 ^ 32 := by decide
  have hnext : exec (.setClock hz) s = _ := invoke_ret hseq (setClock_atSpec hspec hlow hhigh hbusy)
  exact ⟨BitVec.ofNat 32 (50000000 / hz / 2 - 1), Nat.mod_eq_of_lt hfits, hnext⟩

/-! ### Refusals -/

theorem wrCs_reserved {v : Word} (hv : Param.csLegal v = false) : wrCs v s = .refused .reservedCsValue := by
  simp [wrCs, hv]

theorem wrCs_busy {v : Word} (hv : Param.csLegal v = true) (hbusy : s.busy = true) :
    wrCs v s = .refused .configWriteWhileBusy := by
  simp [wrCs, hv, hbusy]

theorem wrDiv_busy (v : Word) (hbusy : s.busy = true) : wrDiv v s = .refused .configWriteWhileBusy := by
  simp [wrDiv, hbusy]

/-- SET_CLOCK in its range is the write of its divisor (R98). -/
theorem setClock_legal {hz : Nat} (hspec : s.cfg.AtSpec) (hlow : 1 ≤ hz) (hhigh : hz ≤ 25000000) :
    setClock hz s = wrDiv (BitVec.ofNat 32 (50000000 / hz / 2 - 1)) s := by
  rw [setClock, if_pos, divisor_atSpec hspec]
  rw [Config.clockTargetLegal_iff, Config.maxClockHz_atSpec hspec]
  exact ⟨hlow, hhigh⟩

theorem setClock_illegal {hz : Nat} (hspec : s.cfg.AtSpec) (h : hz = 0 ∨ 25000000 < hz) :
    setClock hz s = .refused .clockTargetOutOfRange := by
  rw [setClock, if_neg]
  rw [Config.clockTargetLegal_iff, Config.maxClockHz_atSpec hspec]
  omega

/-- Settles O15: each operation's sequence is refused, no operation being in progress. -/
theorem registerRefusals : Obligations.RegisterRefusals := by
  intro s v level hz hspec hseq
  refine ⟨fun hb => ?_, fun h0 h1 => ?_, fun hb hv => ?_, fun hb => ?_, fun hb => ?_, fun hhz => ?_,
    fun hb hlow hhigh => ?_⟩
  · exact invoke_refused hseq (wrTx_busy v hb)
  · exact invoke_refused hseq (wrCs_reserved (by simp [Param.csLegal, h0, h1]))
  · exact invoke_refused hseq (wrCs_busy ((csLegal_iff v).mpr hv) hb)
  · exact invoke_refused hseq (wrDiv_busy v hb)
  · exact invoke_refused hseq (wrCs_busy (csLegal_csWord level) hb)
  · exact invoke_refused hseq (setClock_illegal hspec hhz)
  · exact invoke_refused hseq ((setClock_legal hspec hlow hhigh).trans (wrDiv_busy _ hb))

/-! ### Pseudo-operations -/

/-- Operations that answer alike and whose sequences are the same in a state have the same outcome there. -/
theorem invoke_congr {α : Type} {reply : α → Reply} {body body' : State → Run α} (h : body s = body' s) :
    invoke reply body s = invoke reply body' s := by
  rw [invoke, invoke, h]

/-- Settles O19: each expansion's sequence is the operation's own. -/
theorem pseudoOperationsExpand : Obligations.PseudoOperationsExpand := by
  intro s hspec
  refine ⟨?_, ?_, ?_, fun addr => ?_, fun level => rfl, fun hz hlow hhigh => ?_, ?_⟩
  · exact invoke_congr (sendReset_atSpec hspec)
  · exact invoke_congr (sendInit_atSpec hspec)
  · exact invoke_congr (sendSetBlockLen_atSpec hspec)
  · exact invoke_congr (sendReadBlock_atSpec hspec addr)
  · exact invoke_congr (setClock_legal hspec hlow hhigh)
  · exact invoke_congr (by rw [transferDummy, Config.dummy_atSpec hspec])

end Sys2Proof.Proofs
end

section
/-! SUPPORT. The proofs of what 41_spi_transport.md and 42_sd_command.md say of TRANSFER, DUMMY and the command
frames. -/

namespace Sys2Proof.Proofs

open Sys2Proof.Machine

variable {s : State}

/-! ### TRANSFER -/

/-- Settles O16: the exchange of `b` at the chip select in force, answered with the card's byte. -/
theorem transferExchangesOneByte : Obligations.TransferExchangesOneByte := by
  rintro s b ⟨hseq, hbusy, hspec, hcap⟩
  exact ⟨exchanges_of_returns hseq (transfer_returns b hbusy hspec hcap), rfl⟩

/-- Successive STATUS reads, each with bit 0 = 1 exactly when no exchange is in flight (R92). -/
theorem statusReads_eq_map (off : Nat) (busy : Bool) (n k : Nat) : ∃ vs : List Word,
    statusReads off busy n k = vs.map (.regR off ·) ∧ vs.length = n ∧ ∀ v ∈ vs, v.getLsbD 0 = !busy := by
  induction n generalizing k with
  | zero => exact ⟨[], rfl, rfl, List.forall_mem_nil _⟩
  | succ n ih =>
    obtain ⟨vs, hreads, hlength, hbits⟩ := ih (k + 1)
    exact ⟨statusWord busy (Config.freeStatus k) :: vs, by rw [statusReads, hreads]; rfl, by simp [hlength],
      List.forall_mem_cons.mpr ⟨statusWord_bit _ _, hbits⟩⟩

section Uncut
variable (b : Byte) (hspec : s.cfg.AtSpec) (hseq : s.seq = []) (hbusy : s.busy = false)
  (hcap : ∀ cap, s.cfg.transferPollCap = some cap → Config.freeWait s.draws < s.cfg.timeoutReads cap)
include hspec hseq hbusy hcap

/-- TRANSFER whose polls no cap cuts short is one exchange (R113). -/
theorem transfer_exchanges :
    Exchanges s (s.wire ++ [{ cs := s.cs, mosi := b, miso := s.card.answer s.wire s.cs b }])
      (.byte (s.card.answer s.wire s.cs b)) (exec (.transfer b) s) :=
  exchanges_of_returns (body := transfer b) hseq ⟨_, _, transfer_exact b hbusy hcap, by
    simp [transferEvents, Config.offTx_atSpec hspec, Config.offRx_atSpec hspec, Config.offStatus_atSpec hspec]⟩

/-- The whole trace of such a TRANSFER: the free number of STATUS reads before the exchange, one after it (R114). -/
theorem transfer_trace : ∃ (t : State) (vs : List Word) (last : Word), exec (.transfer b) s = .next t ∧
    vs.length = Config.freeWait s.draws ∧ (∀ v ∈ vs, v.getLsbD 0 = false) ∧ last.getLsbD 0 = true ∧
      t.trace = s.trace ++ [Event.regW 0x44 (b.zeroExtend 32)] ++ vs.map (Event.regR 0x4c ·) ++
        [Event.xchg { cs := s.cs, mosi := b, miso := s.card.answer s.wire s.cs b }, Event.regR 0x4c last,
          Event.regR 0x48 ((s.card.answer s.wire s.cs b).zeroExtend 32)] := by
  obtain ⟨vs, hreads, hlength, hbits⟩ := statusReads_eq_map 0x4c true (Config.freeWait s.draws) (s.draws + 1)
  refine ⟨_, vs, statusWord false (Config.freeStatus (s.draws + 1 + Config.freeWait s.draws)),
    invoke_ret (body := transfer b) hseq (transfer_exact b hbusy hcap), hlength,
    hbits, statusWord_bit .., ?_⟩
  rw [State.answer_trace, State.afterWire_trace, Config.offTx_atSpec hspec, Config.offStatus_atSpec hspec,
    Config.offRx_atSpec hspec, hreads]
  simp [txWord]

end Uncut

/-- Settles O17: without a cap nothing cuts the polls short. -/
theorem transferPollsUntilComplete : Obligations.TransferPollsUntilComplete := by
  rintro s b ⟨hseq, hbusy, hspec, hcap⟩
  obtain ⟨t, vs, last, hnext, -, hbits, hlast, htrace⟩ := transfer_trace b hspec hseq hbusy (by simp [hcap])
  exact ⟨t, vs, last, _, hnext, hbits, hlast, htrace⟩

/-- The two readings of the cap (R113, R185). -/
theorem timeoutReads_eq {c : Config} {cap n : Nat}
    (h : c.capReading = .exceeded ∧ n = cap + 1 ∨ c.capReading = .reached ∧ n = max cap 1) :
    c.timeoutReads cap = n := by
  obtain ⟨hr, rfl⟩ | ⟨hr, rfl⟩ := h <;> rw [Config.timeoutReads, hr]

/-- Settles O18: the free number of polls is below the count that ends them, or it is not. -/
theorem transferWithPollCap : Obligations.TransferWithPollCap := by
  intro s b cap n hspec hseq hbusy hcap hreading
  obtain rfl := timeoutReads_eq hreading
  by_cases hw : Config.freeWait s.draws < s.cfg.timeoutReads cap
  · have huncut : ∀ c, s.cfg.transferPollCap = some c → Config.freeWait s.draws < s.cfg.timeoutReads c := by
      intro c hc
      rw [hcap] at hc
      cases hc
      exact hw
    obtain ⟨t, vs, last, hnext, hlength, hbits, hlast, htrace⟩ := transfer_trace b hspec hseq hbusy huncut
    exact .inl ⟨transfer_exchanges b hspec hseq hbusy huncut, t, vs, last, hnext, hlength ▸ hw, hbits, hlast, htrace⟩
  · obtain ⟨vs, hreads, hlength, hbits⟩ := statusReads_eq_map 0x4c true (s.cfg.timeoutReads cap) (s.draws + 1)
    have hnext : exec (.transfer b) s = _ :=
      invoke_raised hseq (transfer_capped b hbusy hcap (Nat.not_lt.mp hw))
    refine .inr ⟨vs, s.draws + 1 + s.cfg.timeoutReads cap, hlength, hbits, ?_⟩
    rw [hnext, Config.offTx_atSpec hspec, Config.offStatus_atSpec hspec, hreads]
    simp [State.answer, txWord]

/-! ### DUMMY and the command frames -/

/-- Settles O20: DUMMY's sequence is the TRANSFER of 0xFF. -/
theorem dummyExchangesOnes : Obligations.DummyExchangesOnes := by
  rintro s ⟨hseq, hbusy, hspec, hcap⟩
  exact exchanges_of_returns (body := transferDummy) hseq (transferDummy_returns hbusy hspec hcap)

/-- A command frame's operation, whose sequence is SEND_COMMAND, exchanges the six bytes of the frame. -/
theorem frame_exchanges {body : State → Run Unit} {idx : Nat} {p : Word} (h : s.quiet) (hi : idx ≤ 63)
    (hbody : body s = sendCommand idx p s) :
    Exchanges s (s.card.extend s.cs s.wire (frameBytes Config.default idx p)) .done
      (invoke (fun _ => .done) body s) := by
  obtain ⟨hseq, hbusy, hspec, hcap⟩ := h
  exact exchanges_of_returns hseq (hbody ▸ sendCommand_returns p hi hbusy hspec hcap)

/-- Settles O21: the six bytes are those of the frame at R6's marker and checksum. -/
theorem sendCommandSendsSixBytes : Obligations.SendCommandSendsSixBytes :=
  fun _ _ _ hquiet hi => frame_exchanges hquiet hi rfl

/-- The bytes of the four frames (R128 to R131). -/
theorem frameBytes_reset : frameBytes Config.default 0 0#32 = [0x40#8, 0#8, 0#8, 0#8, 0#8, 0x95#8] := by decide
theorem frameBytes_init : frameBytes Config.default 1 0#32 = [0x41#8, 0#8, 0#8, 0#8, 0#8, 0x95#8] := by decide
theorem frameBytes_setBlockLen (p : Word) : frameBytes Config.default 0x16 p = [0x56#8, p.extractLsb' 24 8,
    p.extractLsb' 16 8, p.extractLsb' 8 8, p.extractLsb' 0 8, 0x95#8] := rfl
theorem frameBytes_readBlock (p : Word) : frameBytes Config.default 0x17 p = [0x57#8, p.extractLsb' 24 8,
    p.extractLsb' 16 8, p.extractLsb' 8 8, p.extractLsb' 0 8, 0x95#8] := rfl

/-- Settles O22: each frame is SEND_COMMAND's at R6's index. -/
theorem commandFramesSent : Obligations.CommandFramesSent := by
  intro s addr hquiet
  have ⟨_, _, hspec, _⟩ := hquiet
  refine ⟨?_, ?_, ?_, ?_⟩
  · rw [← frameBytes_reset]
    exact frame_exchanges hquiet (by decide) (sendReset_atSpec hspec)
  · rw [← frameBytes_init]
    exact frame_exchanges hquiet (by decide) (sendInit_atSpec hspec)
  · rw [← frameBytes_setBlockLen]
    exact frame_exchanges hquiet (by decide) (sendSetBlockLen_atSpec hspec)
  · rw [← frameBytes_readBlock]
    exact frame_exchanges hquiet (by decide) (sendReadBlock_atSpec hspec addr)

end Sys2Proof.Proofs
end

section
/-! SUPPORT. The proofs of what 43_sd_response.md says of the classified bytes and of INIT_POLL. -/

namespace Sys2Proof.Proofs

open Sys2Proof.Machine

variable {s : State} {m : Nat}

/-- Settles O24: the byte of each row is of the row's class. -/
theorem responseBytesClassified : Obligations.ResponseBytesClassified := by
  intro s hseq
  refine ⟨?_, ?_, ?_⟩
  · exact invoke_ret (body := classifyReceived Param.busyByte) hseq rfl
  · exact invoke_ret (body := classifyReceived Param.idleByte) hseq rfl
  · exact invoke_ret (body := classifyReceived Param.readyByte) hseq rfl

/-! ### Where a pass of INIT_POLL begins (R146; log entry 1) -/

theorem exec_initPoll (hseq : s.seq = []) : exec .initPoll s = endPollAlone (pollOnce 0 { s with seq := [] }) := by
  have he : ({ s with seq := [] } : State) = s := by rw [← hseq]
  rw [he]
  exact if_pos hseq

theorem resume_alone (hseq : s.seq = [.initPoll m]) : resume s = endPollAlone (pollOnce m { s with seq := [] }) := by
  rw [resume, hseq]

theorem resume_inInit (hseq : s.seq = [.initPoll m, .init]) :
    resume s = endPollInInit (pollOnce m { s with seq := [] }) := by
  rw [resume, hseq]

/-- The cap is tested before anything is sent (R146). -/
theorem pollOnce_capped (hcap : s.cfg.initPollCap = some m) : pollOnce m s = .raised .initFailedCapped s := if_pos hcap

/-- Settles O28: the pass raises in the state it begins in. -/
theorem initPollCapped : Obligations.InitPollCapped := by
  intro s m hcap
  have hraise : pollOnce m { s with seq := [] } = .raised .initFailedCapped { s with seq := [] } := pollOnce_capped hcap
  refine ⟨?_, fun hseq => ?_, fun hseq => ?_⟩
  · rintro hseq rfl
    rw [exec_initPoll hseq, hraise, ← hseq]
    rfl
  · rw [resume_alone hseq, hraise]; rfl
  · rw [resume_inInit hseq, hraise]; rfl

/-- Settles O27: one frame and its polls, then the three cases of the result. -/
theorem initPollPass : Obligations.InitPollPass := by
  intro s m o hbusy hspec hcap hicap hbegin r
  have ho : o = endPollAlone (pollOnce m { s with seq := [] }) := by
    obtain ⟨hseq, rfl, rfl⟩ | ⟨hseq, rfl⟩ := hbegin
    · exact exec_initPoll hseq
    · exact resume_alone hseq
  obtain ⟨tr, d, hobs, hpass⟩ := pollOnce_quiet (s := { s with seq := [] }) m hbusy hspec hcap hicap
  refine ⟨tr, d, hobs, ?_⟩
  rw [ho, hpass]
  change endPollAlone (if r.1 = _ then _ else if r.1 = _ then _ else _) = _
  by_cases hready : r.1 = .byte 0x00#8
  · have hidle : r.1 ≠ .byte 0x01#8 := by rw [hready]; decide
    simp only [if_pos hready, if_neg hidle]; rfl
  · by_cases hidle : r.1 = .byte 0x01#8
    · simp only [if_neg hready, if_pos hidle, List.append_nil]; rfl
    · simp only [if_neg hready, if_neg hidle]; rfl

end Sys2Proof.Proofs
end

section
/-! SUPPORT. The proofs of what 44_driver_sequences.md says of INIT. -/

namespace Sys2Proof.Proofs

open Sys2Proof.Machine

variable {s u t : State} {m : Nat} {cs : Bit} {div : Word} {w : List Xchg} {evs : List Event}

/-! ### Step 5 and the steps after it -/

/-- `s` after exchanges that bring the wire to `w`, with chip select `cs`, divisor `div`, sequencer `seq` and the replies
`rs` added: the state InitLeaves names. -/
def initState (s : State) (cs : Bit) (div : Word) (w : List Xchg) (tr : List Event) (d : Nat) (seq : List Frame)
    (rs : List Reply) : State :=
  { s.afterWire w tr d with cs := cs, div := div, seq := seq, outcomes := s.outcomes ++ rs }

theorem command_ne_nil (c : Card) (cs : Bit) (w : List Xchg) (idx : Nat) (p : Word) : (c.command cs w idx p).2 ≠ [] :=
  (command_eq_append c cs w idx p).choose_spec.2

theorem initState_answer (tr : List Event) (d : Nat) (r : Reply) :
    (initState s cs div w tr d [] []).answer r = initState s cs div w tr d [] [r] := by
  simp [initState, State.answer]

/-- INIT, begun in `s`, has reached `u`: nothing is in flight, `evs` were observed, and the fields that exchanges and
configuration writes leave are those of `s`. -/
structure InitReaches (s : State) (evs : List Event) (u : State) : Prop where
  seq : u.seq = []
  busy : u.busy = false
  mem : u.mem = s.mem
  outcomes : u.outcomes = s.outcomes
  host : u.host = s.host
  card : u.card = s.card
  cfg : u.cfg = s.cfg
  turn : u.turn = s.turn
  observed : observed u.trace = observed s.trace ++ evs

/-- Where exchanges lead from a state that INIT has reached. -/
theorem InitReaches.afterWire (h : InitReaches s evs u) (hw : w ≠ []) (tr : List Event) (d : Nat) :
    u.afterWire w tr d = initState s u.cs u.div w tr d [] [] := by
  simp [State.afterWire, initState, List.getLast?_eq_some_getLast hw, h.seq, h.mem, h.outcomes, h.host, h.card, h.cfg,
    h.turn]

theorem initReaches_initState {tr : List Event} {d : Nat} (hobs : observed tr = observed s.trace ++ evs) :
    InitReaches s evs (initState s cs div w tr d [] []) :=
  ⟨rfl, rfl, rfl, List.append_nil _, rfl, rfl, rfl, rfl, hobs⟩

/-- R166, R167: steps 6 and 7 from a state that INIT has reached. -/
theorem InitReaches.stepSix (h : InitReaches s evs u) (hspec : s.cfg.AtSpec) (hcap : s.cfg.transferPollCap = none) :
    let r6 := s.card.command u.cs u.wire 0x16 s.cfg.blockSize
    let evs6 := evs ++ transferEvents (r6.2.drop u.wire.length)
    if r6.1 ≠ .byte 0x00#8 then
      InitLeaves s u.cs u.div r6.2 evs6 [] [.rc (-1) (some (.blockLenConfigFailed r6.1))] (endInit (initTail u))
    else InitLeaves s u.cs 4#32 r6.2 (evs6 ++ [.regW 0x54 4#32]) [] [.rc 0 none] (endInit (initTail u)) := by
  obtain ⟨tr, d, hobs, htail⟩ := initTail_quiet h.busy (h.cfg ▸ hspec) (h.cfg ▸ hcap)
  rw [htail, ← h.card, ← h.cfg]
  intro r6 evs6
  have hne : r6.2 ≠ [] := command_ne_nil _ _ _ _ _
  rw [h.observed, List.append_assoc] at hobs
  rw [h.afterWire hne, h.afterWire hne]
  by_cases hready : r6.1 = .byte 0x00#8
  · rw [if_pos hready, if_neg (not_not.mpr hready)]
    exact ⟨tr ++ [.regW 0x54 4#32], d, congrArg _ (initState_answer (div := 4#32) _ d _), by simp [hobs, evs6, r6]⟩
  · rw [if_neg hready, if_pos hready]
    exact ⟨tr, d, congrArg _ (initState_answer tr d _), hobs⟩

/-- R165 to R167: one pass of INIT_POLL from a state that INIT has reached, and the steps after it. -/
theorem InitReaches.fromStepFive (h : InitReaches s evs u) (hspec : s.cfg.AtSpec) (hcap : s.cfg.transferPollCap = none)
    (hicap : s.cfg.initPollCap ≠ some m) :
    InitFromStepFive s u.cs u.div u.wire evs m (endPollInInit (pollOnce m u)) := by
  obtain ⟨tr5, d5, hobs5, hpass⟩ := pollOnce_quiet m h.busy (h.cfg ▸ hspec) (h.cfg ▸ hcap) (h.cfg ▸ hicap)
  rw [InitFromStepFive, ← h.card, ← h.cfg, hpass]
  set r5 := u.card.command u.cs u.wire 1 0#32
  have hne5 : r5.2 ≠ [] := command_ne_nil _ _ _ _ _
  rw [h.observed, List.append_assoc] at hobs5
  rw [h.afterWire hne5]
  by_cases hidle : r5.1 = .byte 0x01#8
  · have hready : r5.1 ≠ .byte 0x00#8 := by rw [hidle]; decide
    simp only [if_pos hidle, if_neg hready]
    exact ⟨tr5, d5, rfl, hobs5⟩
  by_cases hready : r5.1 = .byte 0x00#8
  · rw [if_neg hidle, if_neg (not_not.mpr hready), if_pos hready]
    have hsix := (initReaches_initState (cs := u.cs) (div := u.div) (w := r5.2) (d := d5) hobs5).stepSix hspec hcap
    rw [h.card, h.cfg]
    exact hsix
  · simp only [if_neg hidle, if_neg hready, if_pos hready]
    exact ⟨tr5, d5, congrArg _ (initState_answer tr5 d5 _), hobs5⟩

/-- A later pass begins where the step before it ended, with no operation in progress in the pass itself. -/
theorem initReaches_resume (hbusy : s.busy = false) : InitReaches s [] { s with seq := [] } :=
  ⟨rfl, hbusy, rfl, rfl, rfl, rfl, rfl, rfl, (List.append_nil _).symm⟩

/-- INIT's first `exec` (R160): steps 1 to 4 and the first pass of step 5. -/
theorem exec_init (hseq : s.seq = []) :
    exec .init s = endPollInInit ((initHead s).bind fun _ u => pollOnce 0 u) := if_pos hseq

/-- Settles O30: steps 1 to 4 reach step 5 or raise; from there, as at every later pass, `fromStepFive`. -/
theorem initRunsItsSteps : Obligations.InitRunsItsSteps := by
  constructor
  · rintro s ⟨hseq, hbusy, hspec, hcap⟩ w r4 evs
    obtain ⟨tr, d, hobs, hhead⟩ := initHead_quiet hbusy hspec hcap
    have hstate : ({ s.afterWire r4.2 tr d with cs := 1#1, div := 61#32 } : State) =
        initState s 1#1 61#32 r4.2 tr d [] [] := by simp [initState, State.afterWire, hseq]
    have hreach : InitReaches s evs (initState s 1#1 61#32 r4.2 tr d [] []) := initReaches_initState hobs
    rw [exec_init hseq, hhead, hstate]
    change ite (r4.1 ≠ _) _ _
    by_cases hidle : r4.1 = .byte 0x01#8
    · rw [if_neg (not_not.mpr hidle), if_pos hidle, Run.bind_ret]
      by_cases hicap : s.cfg.initPollCap = some 0
      · rw [if_pos hicap, pollOnce_capped (s := initState s 1#1 61#32 r4.2 tr d [] []) hicap]
        exact ⟨tr, d, congrArg _ (initState_answer tr d _), hobs⟩
      · rw [if_neg hicap]
        exact hreach.fromStepFive hspec hcap hicap
    · rw [if_pos hidle, if_neg hidle]
      exact ⟨tr, d, congrArg _ (initState_answer tr d _), hobs⟩
  · intro s m hseq hbusy hspec hcap hicap
    rw [resume_inInit hseq]
    exact (initReaches_resume hbusy).fromStepFive hspec hcap hicap

/-! ### A card that is never ready -/

/-- A step goes on with the operation in progress while nothing is in flight (R21). -/
theorem step_resume (hseq : s.seq ≠ []) (hbusy : s.busy = false) : step s = onNext reschedule (resume s) := by
  obtain ⟨f, fs, hfs⟩ := List.exists_cons_of_ne_nil hseq
  have hmoves : engineMoves s = false := by simp [engineMoves, hbusy]
  rw [step, move, hmoves, if_neg Bool.false_ne_true, hostMove, hfs]

/-- R146: where the command is answered 0x01, a step leaves INIT at its loop head, one more pass done. -/
theorem step_again (hseq : s.seq = [.initPoll m, .init]) (hbusy : s.busy = false) (hspec : s.cfg.AtSpec)
    (hcap : s.cfg.transferPollCap = none) (hicap : s.cfg.initPollCap ≠ some m)
    (hidle : (s.card.command s.cs s.wire 1 0#32).1 = .byte 0x01#8) :
    ∃ w tr d, step s = .next (reschedule (initState s s.cs s.div w tr d [.initPoll (m + 1), .init] [])) := by
  obtain ⟨-, hlater⟩ := initRunsItsSteps
  have hpass := hlater s m hseq hbusy hspec hcap hicap
  rw [InitFromStepFive, if_pos hidle] at hpass
  obtain ⟨tr, d, hnext, -⟩ := hpass
  exact ⟨_, tr, d, by rw [step_resume (by simp [hseq]) hbusy, hnext]; rfl⟩

/-- Settles O29: by induction on the steps, each of which is such a pass. -/
theorem initPollNeverGivesUp : Obligations.InitPollNeverGivesUp := by
  intro s m hseq hbusy hspec hcap hicap hcard k
  induction k generalizing s m with
  | zero => exact ⟨s, rfl, hseq, rfl, rfl, hbusy, rfl⟩
  | succ k ih =>
    obtain ⟨w, tr, d, hstep⟩ := step_again hseq hbusy hspec hcap (by simp [hicap]) (hcard s.wire)
    set u := reschedule (initState s s.cs s.div w tr d [.initPoll (m + 1), .init] [])
    have hcfg : u.cfg = s.cfg := reschedule_cfg _
    have hcs : u.cs = s.cs := reschedule_cs _
    have hsame : u.card = s.card := reschedule_card _
    have houtcomes : u.outcomes = s.outcomes := (reschedule_outcomes _).trans (List.append_nil _)
    obtain ⟨t, hrun, htseq, htdiv, htcs, htbusy, htoutcomes⟩ := ih u (m + 1) (reschedule_seq _) (reschedule_busy _)
      (hcfg ▸ hspec) (hcfg ▸ hcap) (hcfg ▸ hicap) (by rw [hsame, hcs]; exact hcard)
    refine ⟨t, (run_succ core k hstep).trans hrun, ?_, htdiv.trans (reschedule_div _), htcs.trans hcs, htbusy,
      htoutcomes.trans houtcomes⟩
    rw [htseq, Nat.add_right_comm, Nat.add_assoc]

/-! ### The configuration writes of INIT -/

/-- A STATUS read is no configuration write, so the observed trace has them all (R169). -/
theorem configWrites_observed (tr : List Event) :
    (observed tr).filterMap Event.configWrite = tr.filterMap Event.configWrite := by
  induction tr with
  | nil => rfl
  | cons e tr ih =>
    cases e with
    | regW off v => rw [observed_regW, List.filterMap_cons, List.filterMap_cons, ih]
    | xchg x => rw [observed_xchg, List.filterMap_cons, List.filterMap_cons, ih]
    | regR off v =>
      rw [List.filterMap_cons_none rfl, ← ih, observed, List.filter_cons]
      split
      · exact List.filterMap_cons_none rfl
      · rfl

theorem configWrites_transferEvents (xs : List Xchg) : (transferEvents xs).filterMap Event.configWrite = [] := by
  induction xs with
  | nil => rfl
  | cons x xs ih => exact ih

/-- The CS and DIV writes that an outcome of INIT adds, and its replies. -/
theorem initLeaves_writes {seq : List Frame} {rs : List Reply} (h : InitLeaves s cs div w evs seq rs (.next t)) :
    t.trace.filterMap Event.configWrite = s.trace.filterMap Event.configWrite ++ evs.filterMap Event.configWrite ∧
      t.outcomes = s.outcomes ++ rs := by
  obtain ⟨tr, d, ht, hobs⟩ := h
  cases ht
  refine ⟨?_, rfl⟩
  show tr.filterMap Event.configWrite = _
  rw [← configWrites_observed s.trace, ← List.filterMap_append, ← hobs, configWrites_observed]

/-- What R169 says of INIT's writes, `ws` being those of the steps before the last: the write of step 7 iff it returns
0. -/
def InitWrites (s t : State) (ws : List (Nat × Word)) : Prop :=
  t.trace.filterMap Event.configWrite = s.trace.filterMap Event.configWrite ++ ws ++
    (if t.outcomes = s.outcomes ++ [.rc 0 none] then [(0x54, 4#32)] else [])

/-- An outcome of INIT with replies other than `0` adds no write of step 7. -/
theorem initWrites_of_leaves {seq : List Frame} {rs : List Reply} (hrs : rs ≠ [.rc 0 none])
    (h : InitLeaves s cs div w evs seq rs (.next t)) : InitWrites s t (evs.filterMap Event.configWrite) := by
  obtain ⟨hwrites, houtcomes⟩ := initLeaves_writes h
  have hne : t.outcomes ≠ s.outcomes ++ [.rc 0 none] := by rw [houtcomes]; simpa using hrs
  rw [InitWrites, if_neg hne, List.append_nil, hwrites]

theorem initWrites_of_fromStepFive (h : InitFromStepFive s cs div w evs m (.next t)) :
    InitWrites s t (evs.filterMap Event.configWrite) := by
  unfold InitFromStepFive at h
  dsimp only at h
  split at h
  · simpa [configWrites_transferEvents] using initWrites_of_leaves (by simp) h
  · split at h
    · simpa [configWrites_transferEvents] using initWrites_of_leaves (by simp) h
    · split at h
      · simpa [configWrites_transferEvents] using initWrites_of_leaves (by simp) h
      · obtain ⟨hwrites, houtcomes⟩ := initLeaves_writes h
        rw [InitWrites, if_pos houtcomes, hwrites]
        simp [configWrites_transferEvents, Event.configWrite]

/-- The writes of steps 1 to 4 (R160 to R163). -/
theorem initHead_writes (xs ys : List Xchg) :
    ([Event.regW 0x54 61#32, Event.regW 0x50 0#32] ++ transferEvents xs ++ [Event.regW 0x50 1#32] ++
      transferEvents ys).filterMap Event.configWrite = [(0x54, 61#32), (0x50, 0#32), (0x50, 1#32)] := by
  simp [configWrites_transferEvents, Event.configWrite]

/-- Settles O31: by the exact outcomes of INIT's first `exec` and of its later passes. -/
theorem initConfigWrites : Obligations.InitConfigWrites := by
  constructor
  · intro s t hquiet h
    obtain ⟨hfirst, -⟩ := initRunsItsSteps
    have hruns := hfirst s hquiet
    rw [h] at hruns
    dsimp only at hruns
    split at hruns
    · have hwrites := initWrites_of_leaves (by simp) hruns
      rwa [initHead_writes] at hwrites
    · split at hruns
      · have hwrites := initWrites_of_leaves (by simp) hruns
        rwa [initHead_writes] at hwrites
      · have hwrites := initWrites_of_fromStepFive hruns
        rwa [initHead_writes] at hwrites
  · intro s t m hseq hbusy hspec hcap h
    by_cases hicap : s.cfg.initPollCap = some m
    · obtain ⟨-, -, hcapped⟩ := initPollCapped s m hicap
      rw [hcapped hseq] at h
      cases h
      simp
    · obtain ⟨-, hlater⟩ := initRunsItsSteps
      have hpass := hlater s m hseq hbusy hspec hcap hicap
      rw [h] at hpass
      simpa [InitWrites] using initWrites_of_fromStepFive hpass

end Sys2Proof.Proofs
end

section
/-! SUPPORT. The proofs of what 44_driver_sequences.md says of READ_BLOCK, and of when the operations of L1 to L3 are
refused. -/

namespace Sys2Proof.Proofs

open Sys2Proof.Machine

variable {s : State}

/-! ### READ_BLOCK -/

/-- What comes between two wires and between the second and a third comes between the first and the third. -/
theorem transferEvents_drop_append {v w x : List Xchg} (hw : v <+: w) (hx : w <+: x) :
    transferEvents (w.drop v.length) ++ transferEvents (x.drop w.length) = transferEvents (x.drop v.length) := by
  obtain ⟨ys, rfl⟩ := hw
  obtain ⟨zs, rfl⟩ := hx
  simp

theorem extend_grows (c : Card) (cs : Bit) (w : List Xchg) (bs : List Byte) : w <+: c.extend cs w bs := by
  obtain ⟨xs, hxs, -⟩ := extend_eq_append c cs w bs
  exact ⟨xs, hxs.symm⟩

theorem command_grows (c : Card) (cs : Bit) (w : List Xchg) (idx : Nat) (p : Word) :
    w <+: (c.command cs w idx p).2 := by
  obtain ⟨xs, hxs, -⟩ := command_eq_append c cs w idx p
  exact (extend_grows c cs w _).trans ⟨xs, hxs.symm⟩

/-- READ_BLOCK of an admitted buffer: the frame and its polls, the data, the trailing bytes (R170). -/
theorem readBlock_admitted {addr : Word} {dest : Nat} (hspec : s.cfg.AtSpec)
    (h : s.cfg.admits dest s.cfg.blockSize.toNat = true) :
    readBlock addr dest s = ((sendCommand 0x17 addr s).bind fun _ s => getResult s).bind fun _ s =>
      (readBytes s.cfg.blockSize.toNat dest s).bind fun _ s =>
        transferAll (List.replicate s.cfg.trailingDiscard s.cfg.dummy) s := by
  rw [readBlock, if_pos h, sendReadBlock_atSpec hspec, Run.bind_assoc]

/-- Settles O32: the three parts in turn, each from the state the part before it left. -/
theorem readBlockFillsBuffer : Obligations.ReadBlockFillsBuffer := by
  rintro s addr dest ⟨hseq, hbusy, hspec, hcap⟩ hadmits w2 w3 w4
  obtain ⟨tr2, d2, h2, o2⟩ := command_returns (idx := 0x17) addr (by decide) hbusy hspec hcap
  have hne2 : w2 ≠ [] := command_ne_nil _ _ _ _ _
  obtain ⟨tr3, d3, m, h3, o3, hstored, hframe⟩ :=
    readBytes_returns s.cfg.blockSize.toNat dest (tr := tr2) (d := d2) (m := s.mem) hne2 hspec hcap
  have hp3 : w2 <+: w3 := extend_grows ..
  have hne3 : w3 ≠ [] := hp3.ne_nil hne2
  obtain ⟨tr4, d4, h4, o4⟩ :=
    transferAll_after (List.replicate s.cfg.trailingDiscard 0xFF#8) (tr := tr3) (d := d3) (m := m) hne3 hspec hcap
  have hret : readBlock addr dest s = .ret () { s.afterWire w4 tr4 d4 with mem := m } := by
    rw [readBlock_admitted hspec hadmits, h2, Run.bind_ret]
    refine (congrArg (fun x => Run.bind x _) h3).trans ?_
    rw [Run.bind_ret]
    show transferAll (List.replicate s.cfg.trailingDiscard s.cfg.dummy) _ = _
    rw [Config.dummy_atSpec hspec]
    exact h4
  refine ⟨tr4, d4, m, invoke_ret (body := readBlock addr dest) hseq hret, ?_, hstored, hframe⟩
  have hp2 : s.wire <+: w2 := command_grows ..
  have hp4 : w3 <+: w4 := extend_grows ..
  calc observed tr4
    _ = observed s.trace ++ transferEvents (w2.drop s.wire.length) ++ transferEvents (w3.drop w2.length) ++
        transferEvents (w4.drop w3.length) := by rw [o4, o3, o2]
    _ = observed s.trace ++ transferEvents (w4.drop s.wire.length) := by
      rw [List.append_assoc, List.append_assoc, transferEvents_drop_append hp3 hp4,
        transferEvents_drop_append hp2 (hp3.trans hp4)]

/-! ### Refusals -/

theorem transfer_busy (b : Byte) (hbusy : s.busy = true) : transfer b s = .refused .txWriteWhileBusy := by
  rw [transfer, wrTx_busy _ hbusy, Run.bind_refused]

/-- A frame in range begins with a TX write (R125). -/
theorem sendCommand_refused {idx : Nat} (p : Word) (hi : idx ≤ 63) (hbusy : s.busy = true) :
    sendCommand idx p s = .refused .txWriteWhileBusy := by
  have hi' : idx ≤ Param.maxIndex := hi
  rw [sendCommand, if_pos hi', frameBytes, List.cons_append, transferAll, transfer_busy _ hbusy, Run.bind_refused]

theorem sendCommand_outOfRange {idx : Nat} (p : Word) (hi : 63 < idx) :
    sendCommand idx p s = .refused .indexOutOfRange := if_neg (Nat.not_le.mpr hi)

theorem getResult_refused (hspec : s.cfg.AtSpec) (hbusy : s.busy = true) :
    getResult s = .refused .txWriteWhileBusy := by
  rw [getResult, Config.resultRetries_atSpec hspec, pollResult, transferDummy, transfer_busy _ hbusy, Run.bind_refused]

/-- Settles O33: an operand out of range is refused first; an exchange in flight refuses the first register write. -/
theorem sequenceRefusals : Obligations.SequenceRefusals := by
  intro s idx p b addr dest hspec hseq
  refine ⟨fun hi => ?_, fun hbad => ?_, fun hbusy => ⟨?_, fun hi => ?_, ?_, ?_, fun hicap => ?_, ?_, ?_,
    fun hadmits => ?_⟩⟩
  · exact invoke_refused hseq (sendCommand_outOfRange p hi)
  · exact invoke_refused hseq (if_neg (by simp [hbad]))
  · exact invoke_refused hseq (transfer_busy b hbusy)
  · exact invoke_refused hseq (sendCommand_refused p hi hbusy)
  · exact invoke_refused hseq (getResult_refused hspec hbusy)
  · refine invoke_refused hseq ?_
    rw [expectIdle, sendReset_atSpec hspec, sendCommand_refused _ (by decide) hbusy, Run.bind_refused]
  · have hpoll : pollOnce 0 s = .refused .txWriteWhileBusy := by
      rw [pollOnce, if_neg hicap, sendInit_atSpec hspec, sendCommand_refused _ (by decide) hbusy, Run.bind_refused]
    exact (if_pos hseq).trans (congrArg endPollAlone hpoll)
  · refine invoke_refused hseq ?_
    rw [expectReady, sendSetBlockLen_atSpec hspec, sendCommand_refused _ (by decide) hbusy, Run.bind_refused]
  · rw [exec_init hseq, initHead, Config.initHz_atSpec hspec, setClock_legal hspec (by decide) (by decide),
      wrDiv_busy _ hbusy]
    rfl
  · refine invoke_refused hseq ?_
    rw [readBlock_admitted hspec hadmits, sendCommand_refused _ (by decide) hbusy, Run.bind_refused, Run.bind_refused]

end Sys2Proof.Proofs
end

section
/-! SUPPORT. The proofs of what 70_reset_and_hazards.md says of the step and of reset. -/

namespace Sys2Proof.Proofs

open Sys2Proof.Machine

variable {s : State} {r : Request} {rest : List Request}

/-- On the host's move, with no operation in progress, a step runs the host's next operation (log entries 11, 12). -/
theorem step_runRequest (hseq : s.seq = []) (hhost : s.host = r :: rest) (hturn : s.busy = false ∨ s.turn = .host) :
    step s = onNext reschedule (runRequest r { s with host := rest }) := by
  have hmoves : engineMoves s = false := by
    obtain hbusy | hturn := hturn
    · simp [engineMoves, hbusy]
    · simp [engineMoves, hturn, hhost]
  rw [step, move, hmoves, if_neg Bool.false_ne_true, hostMove, hseq, hhost]

theorem runRequest_instr {i : Instr} (h : decode s.cfg r = .instr i) : runRequest r s = exec i s := by
  rw [runRequest, h]

/-- Settles O34: the host's move runs what its next operation decodes to. -/
theorem stepRunsDecoded : Obligations.StepRunsDecoded := by
  intro s r rest i hseq hhost hturn hdecode _
  rw [step_runRequest hseq hhost hturn, runRequest_instr (s := { s with host := rest }) hdecode]

/-- While an operation is in progress every other is refused (R224). -/
theorem exec_concurrent (hseq : s.seq ≠ []) (i : Instr) : exec i s = .refused .concurrentInvocation := by
  cases i <;> exact if_neg hseq

/-- Settles O35: with nothing in flight the engine does not move, and the sequencer is not empty. -/
theorem stepResumesOperation : Obligations.StepResumesOperation :=
  fun _ hseq hbusy => ⟨step_resume hseq hbusy, exec_concurrent hseq⟩

/-- Settles O36: the engine moves, and with nothing in flight after it the turn is the host's. -/
theorem engineCompletesExchange : Obligations.EngineCompletesExchange := by
  intro s hbusy hturn
  have hmoves : engineMoves s = true := by
    obtain hturn | ⟨hseq, hhost⟩ := hturn
    · simp [engineMoves, hbusy, hturn]
    · simp [engineMoves, hbusy, hseq, hhost]
  rw [step, move, hmoves, if_pos rfl]
  rfl

/-- Settles O37: neither agent has anything to do. -/
theorem endedRunRests : Obligations.EndedRunRests := by
  intro s hseq hhost hbusy hturn
  have hmoves : engineMoves s = false := by simp [engineMoves, hbusy]
  rw [step, move, hmoves, if_neg Bool.false_ne_true, hostMove, hseq, hhost, onNext_next, reschedule,
    if_neg (by simp [hbusy]), ← hturn]

/-- Settles O38: the word's operation stands first in the host's list, and the turn is the host's. -/
theorem fetchedWordRuns : Obligations.FetchedWordRuns := by
  intro s nbits w r i hrequest hdecode
  rw [State.withFetchWord, hrequest]
  exact (step_runRequest (s := s.withRequest r) rfl rfl (.inr rfl)).trans
    (congrArg _ (runRequest_instr (s := { s with seq := [], turn := .host }) hdecode))

/-- Settles O54: the decoder answers the byte without an operation, and its class is other. -/
theorem otherResponseClassified : Obligations.OtherResponseClassified := by
  intro s b rest hseq hhost hturn hlow hhigh
  have hother : runRequest (.byteIn b) { s with host := rest } = otherResponse b { s with host := rest } := by
    rw [runRequest, decode, decodeByteIn_other hlow hhigh]
  have hnext : otherResponse b { s with host := rest } = _ :=
    invoke_ret (body := classifyReceived b) (reply := .cls) hseq rfl
  rw [step_runRequest hseq hhost hturn, hother, hnext, classifyByte_other hlow hhigh]
  rfl

/-- Settles O51: STATUS bit 0 by RD_STATUS's exact outcome, the rest by evaluation. -/
theorem resetState : Obligations.ResetState :=
  ⟨rfl, rfl, rfl, rfl, rfl, rfl, _, _, exec_rdStatus rfl rfl, rfl, statusWord_bit _ _⟩

end Sys2Proof.Proofs
end
